-- ==== Sys2Proof/Word.lean ====
section
/-! DEFINITION. The word types of the block: register words, bytes, scalars, field elements. -/

namespace Sys2Proof

/-- A general register, a command word or a word of the output stream: 64 bits (10_state.md R22, 30_encoding.md R70). -/
abbrev Word := BitVec 64

/-- A cell of `BYTE` or `TEXT` (20_memory.md R50). -/
abbrev Byte := BitVec 8

/-- A u31. A scalar of GF(P) is one below `P` (40_field_scalar.md R100). -/
abbrev Scalar := BitVec 31

/-- The number of a general register, 0 to 15 (10_state.md R22). -/
abbrev Reg := Fin 16

/-- An element `a + b·x` of GF(P²) (41_field_ext.md R120), 2 × 31 bits (10_state.md R21). It is canonical when both
components are below `P`; that is an invariant of the state, not of the type (log entry 11). -/
structure Elem where
  a : Scalar
  b : Scalar
deriving DecidableEq, Repr

end Sys2Proof
end

