-- ==== Sys2Proof/Syntax.lean ====
section
/-! DEFINITION. The 33 commands of FORE-C 1.0 (30_encoding.md R74), one constructor per row of the opcode table. -/

namespace Sys2Proof

/-- A decoded command with its operands. Register operands are numbers 0 to 15; immediates are the 32 bits of
`imm32` (30_encoding.md R71, R73), so a reserved system register or level can be written and is refused by
`Instr.wf`. -/
inductive Instr where
  -- data movement and system
  | lil (rd : Reg) (imm : BitVec 32)
  | lih (rd : Reg) (imm : BitVec 32)
  | mov (rd rs1 : Reg)
  | rdsr (rd : Reg) (sr : BitVec 32)
  | out (rs1 : Reg)
  | nop
  -- GF(P)
  | red (rd rs1 : Reg)
  | addp (rd rs1 rs2 : Reg)
  | subp (rd rs1 rs2 : Reg)
  | mulp (rd rs1 rs2 : Reg)
  | chkirr (rd : Reg)
  -- GF(P²)
  | s2f (rd rs1 : Reg)
  | addx (rd rs1 rs2 : Reg)
  | subx (rd rs1 rs2 : Reg)
  | negx (rd rs1 : Reg)
  | mulx (rd rs1 rs2 : Reg)
  | expx (rd rs1 rs2 : Reg)
  | expix (rd rs1 rs2 : Reg)
  -- memories
  | newseq (rs1 : Reg)
  | lde (rd rs1 : Reg)
  | ste (rs1 rs2 : Reg)
  | newbuf (rs1 : Reg)
  | ldb (rd rs1 : Reg)
  | stb (rs1 rs2 : Reg)
  | ldt (rd rs1 : Reg)
  -- transform
  | haar
  | phi (rs1 : Reg)
  -- frame
  | keyld (rs1 : Reg)
  | tofreq
  | proc
  | edit (rs1 rs2 : Reg) (level : BitVec 32)
  | verify (rd : Reg)
  | recon
deriving DecidableEq, Repr

end Sys2Proof
end

