-- ==== Sys2Proof/WellFormed.lean ====
section
/-! DEFINITION. Which commands have an encoding: the two limits on an immediate (30_encoding.md R73). -/

namespace Sys2Proof

/-- System registers are numbered 0 to 8; numbers from 9 on are reserved (10_state.md R31, 30_encoding.md R75). -/
def sysRegLimit : Nat := 8

/-- Levels are 0 to 63 (30_encoding.md R73, R75). -/
def levelLimit : Nat := 63

/-- The command has an encoding. -/
def Instr.wf : Instr → Bool
  | .rdsr _ sr => decide (sr.toNat ≤ sysRegLimit)
  | .edit _ _ level => decide (level.toNat ≤ levelLimit)
  | .lil _ _ | .lih _ _ | .mov _ _ | .out _ | .nop | .red _ _ | .addp _ _ _ | .subp _ _ _ | .mulp _ _ _
  | .chkirr _ | .s2f _ _ | .addx _ _ _ | .subx _ _ _ | .negx _ _ | .mulx _ _ _ | .expx _ _ _ | .expix _ _ _
  | .newseq _ | .lde _ _ | .ste _ _ | .newbuf _ | .ldb _ _ | .stb _ _ | .ldt _ _ | .haar | .phi _ | .keyld _
  | .tofreq | .proc | .verify _ | .recon => true

end Sys2Proof
end

