-- ==== Sys2Proof/Decode.lean ====
section
/-! DEFINITION. Decoding of command words and, after it, their encoding (30_encoding.md). -/

namespace Sys2Proof

/-! ## Format C -/

/-- The six fields of a command word (30_encoding.md R71). -/
structure Fields where
  opcode : BitVec 8
  rd : BitVec 4
  rs1 : BitVec 4
  rs2 : BitVec 4
  zero : BitVec 12
  imm : BitVec 32
deriving DecidableEq, Repr

/-- The fields of a word at their bit positions (30_encoding.md R71). -/
def fieldsOf (w : Word) : Fields where
  opcode := w.extractLsb' 56 8
  rd := w.extractLsb' 52 4
  rs1 := w.extractLsb' 48 4
  rs2 := w.extractLsb' 44 4
  zero := w.extractLsb' 32 12
  imm := w.extractLsb' 0 32

/-- The word with the given fields (30_encoding.md R71). -/
def wordOf (f : Fields) : Word :=
  f.opcode ++ f.rd ++ f.rs1 ++ f.rs2 ++ f.zero ++ f.imm

/-- The register a register field names. -/
def regOf (field : BitVec 4) : Reg := field.toFin

/-- The field that names a register. -/
def regField (r : Reg) : BitVec 4 := BitVec.ofNat 4 r.val

/-! ## The opcode map -/

/-- How a command uses `imm32` (30_encoding.md R73): not at all, as a 32-bit constant, as a system-register
number, as a level. -/
inductive ImmUse where
  | unused
  | const
  | sysReg
  | level
deriving DecidableEq, Repr

/-- One row of the opcode map (30_encoding.md R74): which register fields the command uses, how it uses `imm32`,
and the command the row's operands make. -/
structure OpRow where
  mnemonic : String
  opcode : BitVec 8
  rd : Bool
  rs1 : Bool
  rs2 : Bool
  imm : ImmUse
  build : Reg → Reg → Reg → BitVec 32 → Instr

/-- Data movement and system commands (30_encoding.md R74). -/
def systemRows : List OpRow := [
  ⟨"LIL", 0x01#8, true, false, false, .const, fun rd _ _ imm => .lil rd imm⟩,
  ⟨"LIH", 0x02#8, true, false, false, .const, fun rd _ _ imm => .lih rd imm⟩,
  ⟨"MOV", 0x03#8, true, true, false, .unused, fun rd rs1 _ _ => .mov rd rs1⟩,
  ⟨"RDSR", 0x04#8, true, false, false, .sysReg, fun rd _ _ imm => .rdsr rd imm⟩,
  ⟨"OUT", 0x05#8, false, true, false, .unused, fun _ rs1 _ _ => .out rs1⟩,
  ⟨"NOP", 0x06#8, false, false, false, .unused, fun _ _ _ _ => .nop⟩]

/-- GF(P) scalar arithmetic (30_encoding.md R74). -/
def scalarRows : List OpRow := [
  ⟨"RED", 0x10#8, true, true, false, .unused, fun rd rs1 _ _ => .red rd rs1⟩,
  ⟨"ADDP", 0x11#8, true, true, true, .unused, fun rd rs1 rs2 _ => .addp rd rs1 rs2⟩,
  ⟨"SUBP", 0x12#8, true, true, true, .unused, fun rd rs1 rs2 _ => .subp rd rs1 rs2⟩,
  ⟨"MULP", 0x13#8, true, true, true, .unused, fun rd rs1 rs2 _ => .mulp rd rs1 rs2⟩,
  ⟨"CHKIRR", 0x14#8, true, false, false, .unused, fun rd _ _ _ => .chkirr rd⟩]

/-- GF(P²) arithmetic (30_encoding.md R74). -/
def extRows : List OpRow := [
  ⟨"S2F", 0x20#8, true, true, false, .unused, fun rd rs1 _ _ => .s2f rd rs1⟩,
  ⟨"ADDX", 0x21#8, true, true, true, .unused, fun rd rs1 rs2 _ => .addx rd rs1 rs2⟩,
  ⟨"SUBX", 0x22#8, true, true, true, .unused, fun rd rs1 rs2 _ => .subx rd rs1 rs2⟩,
  ⟨"NEGX", 0x23#8, true, true, false, .unused, fun rd rs1 _ _ => .negx rd rs1⟩,
  ⟨"MULX", 0x24#8, true, true, true, .unused, fun rd rs1 rs2 _ => .mulx rd rs1 rs2⟩,
  ⟨"EXPX", 0x25#8, true, true, true, .unused, fun rd rs1 rs2 _ => .expx rd rs1 rs2⟩,
  ⟨"EXPIX", 0x26#8, true, true, true, .unused, fun rd rs1 rs2 _ => .expix rd rs1 rs2⟩]

/-- Memory commands (30_encoding.md R74). -/
def memoryRows : List OpRow := [
  ⟨"NEWSEQ", 0x30#8, false, true, false, .unused, fun _ rs1 _ _ => .newseq rs1⟩,
  ⟨"LDE", 0x31#8, true, true, false, .unused, fun rd rs1 _ _ => .lde rd rs1⟩,
  ⟨"STE", 0x32#8, false, true, true, .unused, fun _ rs1 rs2 _ => .ste rs1 rs2⟩,
  ⟨"NEWBUF", 0x33#8, false, true, false, .unused, fun _ rs1 _ _ => .newbuf rs1⟩,
  ⟨"LDB", 0x34#8, true, true, false, .unused, fun rd rs1 _ _ => .ldb rd rs1⟩,
  ⟨"STB", 0x35#8, false, true, true, .unused, fun _ rs1 rs2 _ => .stb rs1 rs2⟩,
  ⟨"LDT", 0x36#8, true, true, false, .unused, fun rd rs1 _ _ => .ldt rd rs1⟩]

/-- Transform commands (30_encoding.md R74). -/
def transformRows : List OpRow := [
  ⟨"HAAR", 0x40#8, false, false, false, .unused, fun _ _ _ _ => .haar⟩,
  ⟨"PHI", 0x41#8, false, true, false, .unused, fun _ rs1 _ _ => .phi rs1⟩]

/-- Frame commands (30_encoding.md R74). -/
def frameRows : List OpRow := [
  ⟨"KEYLD", 0x50#8, false, true, false, .unused, fun _ rs1 _ _ => .keyld rs1⟩,
  ⟨"TOFREQ", 0x51#8, false, false, false, .unused, fun _ _ _ _ => .tofreq⟩,
  ⟨"PROC", 0x52#8, false, false, false, .unused, fun _ _ _ _ => .proc⟩,
  ⟨"EDIT", 0x53#8, false, true, true, .level, fun _ rs1 rs2 imm => .edit rs1 rs2 imm⟩,
  ⟨"VERIFY", 0x54#8, true, false, false, .unused, fun rd _ _ _ => .verify rd⟩,
  ⟨"RECON", 0x55#8, false, false, false, .unused, fun _ _ _ _ => .recon⟩]

/-- The 33 commands (30_encoding.md R74). -/
def opTable : List OpRow :=
  systemRows ++ scalarRows ++ extRows ++ memoryRows ++ transformRows ++ frameRows

/-- The row of an opcode; none for the 223 undefined ones (30_encoding.md R75). -/
def rowOf (opcode : BitVec 8) : Option OpRow :=
  opTable.find? fun r => r.opcode == opcode

/-! ## Decode -/

/-- Why a word is illegal (30_encoding.md R75). -/
inductive IllegalReason where
  | undefinedOpcode
  | zeroFieldSet
  | unusedRegisterSet
  | unusedImmediateSet
  | reservedSystemRegister
  | reservedLevel
deriving DecidableEq, Repr

/-- What decoding says of a word: one command with its operands, or illegal (30_encoding.md R79). -/
inductive Verdict where
  | command (i : Instr)
  | illegal (why : IllegalReason)
deriving DecidableEq, Repr

/-- The command of a verdict. -/
def Verdict.toOption : Verdict → Option Instr
  | .command i => some i
  | .illegal _ => none

/-- Every register field the row does not use is 0 (30_encoding.md R72). -/
def OpRow.registersOk (r : OpRow) (f : Fields) : Bool :=
  (r.rd || f.rd == 0#4) && (r.rs1 || f.rs1 == 0#4) && (r.rs2 || f.rs2 == 0#4)

/-- What is wrong with `imm32` in the row's command, if anything (30_encoding.md R73, R75). -/
def OpRow.immProblem (r : OpRow) (imm : BitVec 32) : Option IllegalReason :=
  match r.imm with
  | .unused => if imm = 0#32 then none else some .unusedImmediateSet
  | .const => none
  | .sysReg => if imm.toNat ≤ sysRegLimit then none else some .reservedSystemRegister
  | .level => if imm.toNat ≤ levelLimit then none else some .reservedLevel

/-- The verdict on a word whose opcode has the row `r` (30_encoding.md R72, R75, R79). -/
def OpRow.verdict (r : OpRow) (f : Fields) : Verdict :=
  if f.zero ≠ 0#12 then .illegal .zeroFieldSet
  else if !r.registersOk f then .illegal .unusedRegisterSet
  else match r.immProblem f.imm with
    | some why => .illegal why
    | none => .command (r.build (regOf f.rd) (regOf f.rs1) (regOf f.rs2) f.imm)

/-- Decoding, total on 64-bit words; it reads no state (30_encoding.md R79). -/
def decode (w : Word) : Verdict :=
  match rowOf (fieldsOf w).opcode with
  | none => .illegal .undefinedOpcode
  | some r => r.verdict (fieldsOf w)

/-! ## Decode by match and mask

The other form in which the spec gives the opcode map. The model decodes by fields; that the two forms agree on every
word is a statement for the provers. -/

/-- Match and mask of one row (30_encoding.md R74). -/
structure MapRow where
  mnemonic : String
  matchBits : Word
  mask : Word
deriving DecidableEq, Repr

/-- Data movement and system commands: match and mask as 30_encoding.md R74 prints them. -/
def systemMap : List MapRow := [
  ⟨"LIL", 0x0100000000000000#64, 0xFF0FFFFF00000000#64⟩,
  ⟨"LIH", 0x0200000000000000#64, 0xFF0FFFFF00000000#64⟩,
  ⟨"MOV", 0x0300000000000000#64, 0xFF00FFFFFFFFFFFF#64⟩,
  ⟨"RDSR", 0x0400000000000000#64, 0xFF0FFFFFFFFFFFF0#64⟩,
  ⟨"OUT", 0x0500000000000000#64, 0xFFF0FFFFFFFFFFFF#64⟩,
  ⟨"NOP", 0x0600000000000000#64, 0xFFFFFFFFFFFFFFFF#64⟩]

/-- GF(P) scalar arithmetic: match and mask as 30_encoding.md R74 prints them. -/
def scalarMap : List MapRow := [
  ⟨"RED", 0x1000000000000000#64, 0xFF00FFFFFFFFFFFF#64⟩,
  ⟨"ADDP", 0x1100000000000000#64, 0xFF000FFFFFFFFFFF#64⟩,
  ⟨"SUBP", 0x1200000000000000#64, 0xFF000FFFFFFFFFFF#64⟩,
  ⟨"MULP", 0x1300000000000000#64, 0xFF000FFFFFFFFFFF#64⟩,
  ⟨"CHKIRR", 0x1400000000000000#64, 0xFF0FFFFFFFFFFFFF#64⟩]

/-- GF(P²) arithmetic: match and mask as 30_encoding.md R74 prints them. -/
def extMap : List MapRow := [
  ⟨"S2F", 0x2000000000000000#64, 0xFF00FFFFFFFFFFFF#64⟩,
  ⟨"ADDX", 0x2100000000000000#64, 0xFF000FFFFFFFFFFF#64⟩,
  ⟨"SUBX", 0x2200000000000000#64, 0xFF000FFFFFFFFFFF#64⟩,
  ⟨"NEGX", 0x2300000000000000#64, 0xFF00FFFFFFFFFFFF#64⟩,
  ⟨"MULX", 0x2400000000000000#64, 0xFF000FFFFFFFFFFF#64⟩,
  ⟨"EXPX", 0x2500000000000000#64, 0xFF000FFFFFFFFFFF#64⟩,
  ⟨"EXPIX", 0x2600000000000000#64, 0xFF000FFFFFFFFFFF#64⟩]

/-- Memory commands: match and mask as 30_encoding.md R74 prints them. -/
def memoryMap : List MapRow := [
  ⟨"NEWSEQ", 0x3000000000000000#64, 0xFFF0FFFFFFFFFFFF#64⟩,
  ⟨"LDE", 0x3100000000000000#64, 0xFF00FFFFFFFFFFFF#64⟩,
  ⟨"STE", 0x3200000000000000#64, 0xFFF00FFFFFFFFFFF#64⟩,
  ⟨"NEWBUF", 0x3300000000000000#64, 0xFFF0FFFFFFFFFFFF#64⟩,
  ⟨"LDB", 0x3400000000000000#64, 0xFF00FFFFFFFFFFFF#64⟩,
  ⟨"STB", 0x3500000000000000#64, 0xFFF00FFFFFFFFFFF#64⟩,
  ⟨"LDT", 0x3600000000000000#64, 0xFF00FFFFFFFFFFFF#64⟩]

/-- Transform commands: match and mask as 30_encoding.md R74 prints them. -/
def transformMap : List MapRow := [
  ⟨"HAAR", 0x4000000000000000#64, 0xFFFFFFFFFFFFFFFF#64⟩,
  ⟨"PHI", 0x4100000000000000#64, 0xFFF0FFFFFFFFFFFF#64⟩]

/-- Frame commands: match and mask as 30_encoding.md R74 prints them. -/
def frameMap : List MapRow := [
  ⟨"KEYLD", 0x5000000000000000#64, 0xFFF0FFFFFFFFFFFF#64⟩,
  ⟨"TOFREQ", 0x5100000000000000#64, 0xFFFFFFFFFFFFFFFF#64⟩,
  ⟨"PROC", 0x5200000000000000#64, 0xFFFFFFFFFFFFFFFF#64⟩,
  ⟨"EDIT", 0x5300000000000000#64, 0xFFF00FFFFFFFFFC0#64⟩,
  ⟨"VERIFY", 0x5400000000000000#64, 0xFF0FFFFFFFFFFFFF#64⟩,
  ⟨"RECON", 0x5500000000000000#64, 0xFFFFFFFFFFFFFFFF#64⟩]

/-- Match and mask of the 33 commands (30_encoding.md R74). -/
def opcodeMap : List MapRow :=
  systemMap ++ scalarMap ++ extMap ++ memoryMap ++ transformMap ++ frameMap

/-- A word is the row's command by match and mask, and for `RDSR` the number is at most 8 (30_encoding.md R74). -/
def MapRow.hits (m : MapRow) (w : Word) : Bool :=
  w &&& m.mask == m.matchBits && (m.mnemonic != "RDSR" || decide ((w.extractLsb' 0 32).toNat ≤ 8))

/-! ## Encode -/

/-- The fields of a command's word (30_encoding.md R71, R74): unused fields are 0. -/
def Instr.fields : Instr → Fields
  | .lil rd imm => ⟨0x01#8, regField rd, 0#4, 0#4, 0#12, imm⟩
  | .lih rd imm => ⟨0x02#8, regField rd, 0#4, 0#4, 0#12, imm⟩
  | .mov rd rs1 => ⟨0x03#8, regField rd, regField rs1, 0#4, 0#12, 0#32⟩
  | .rdsr rd sr => ⟨0x04#8, regField rd, 0#4, 0#4, 0#12, sr⟩
  | .out rs1 => ⟨0x05#8, 0#4, regField rs1, 0#4, 0#12, 0#32⟩
  | .nop => ⟨0x06#8, 0#4, 0#4, 0#4, 0#12, 0#32⟩
  | .red rd rs1 => ⟨0x10#8, regField rd, regField rs1, 0#4, 0#12, 0#32⟩
  | .addp rd rs1 rs2 => ⟨0x11#8, regField rd, regField rs1, regField rs2, 0#12, 0#32⟩
  | .subp rd rs1 rs2 => ⟨0x12#8, regField rd, regField rs1, regField rs2, 0#12, 0#32⟩
  | .mulp rd rs1 rs2 => ⟨0x13#8, regField rd, regField rs1, regField rs2, 0#12, 0#32⟩
  | .chkirr rd => ⟨0x14#8, regField rd, 0#4, 0#4, 0#12, 0#32⟩
  | .s2f rd rs1 => ⟨0x20#8, regField rd, regField rs1, 0#4, 0#12, 0#32⟩
  | .addx rd rs1 rs2 => ⟨0x21#8, regField rd, regField rs1, regField rs2, 0#12, 0#32⟩
  | .subx rd rs1 rs2 => ⟨0x22#8, regField rd, regField rs1, regField rs2, 0#12, 0#32⟩
  | .negx rd rs1 => ⟨0x23#8, regField rd, regField rs1, 0#4, 0#12, 0#32⟩
  | .mulx rd rs1 rs2 => ⟨0x24#8, regField rd, regField rs1, regField rs2, 0#12, 0#32⟩
  | .expx rd rs1 rs2 => ⟨0x25#8, regField rd, regField rs1, regField rs2, 0#12, 0#32⟩
  | .expix rd rs1 rs2 => ⟨0x26#8, regField rd, regField rs1, regField rs2, 0#12, 0#32⟩
  | .newseq rs1 => ⟨0x30#8, 0#4, regField rs1, 0#4, 0#12, 0#32⟩
  | .lde rd rs1 => ⟨0x31#8, regField rd, regField rs1, 0#4, 0#12, 0#32⟩
  | .ste rs1 rs2 => ⟨0x32#8, 0#4, regField rs1, regField rs2, 0#12, 0#32⟩
  | .newbuf rs1 => ⟨0x33#8, 0#4, regField rs1, 0#4, 0#12, 0#32⟩
  | .ldb rd rs1 => ⟨0x34#8, regField rd, regField rs1, 0#4, 0#12, 0#32⟩
  | .stb rs1 rs2 => ⟨0x35#8, 0#4, regField rs1, regField rs2, 0#12, 0#32⟩
  | .ldt rd rs1 => ⟨0x36#8, regField rd, regField rs1, 0#4, 0#12, 0#32⟩
  | .haar => ⟨0x40#8, 0#4, 0#4, 0#4, 0#12, 0#32⟩
  | .phi rs1 => ⟨0x41#8, 0#4, regField rs1, 0#4, 0#12, 0#32⟩
  | .keyld rs1 => ⟨0x50#8, 0#4, regField rs1, 0#4, 0#12, 0#32⟩
  | .tofreq => ⟨0x51#8, 0#4, 0#4, 0#4, 0#12, 0#32⟩
  | .proc => ⟨0x52#8, 0#4, 0#4, 0#4, 0#12, 0#32⟩
  | .edit rs1 rs2 level => ⟨0x53#8, 0#4, regField rs1, regField rs2, 0#12, level⟩
  | .verify rd => ⟨0x54#8, regField rd, 0#4, 0#4, 0#12, 0#32⟩
  | .recon => ⟨0x55#8, 0#4, 0#4, 0#4, 0#12, 0#32⟩

/-- The word of a command (30_encoding.md R71, R72, R74). -/
def encode (i : Instr) : Word := wordOf i.fields

/-! ## Words as bytes -/

/-- The eight bytes of a word, least significant first, where a platform carries words over a narrower path
(20_memory.md R53). -/
def bytesOfWord (w : Word) : List Byte :=
  (List.range 8).map fun k => w.extractLsb' (8 * k) 8

/-- The word whose bytes, least significant first, are given; missing bytes count as 0 and bytes past the eighth are
dropped by the shift (20_memory.md R53; log entry 16). -/
def wordOfBytes (bytes : List Byte) : Word :=
  bytes.foldr (fun b w => w <<< 8 ||| b.setWidth 64) 0#64

/-- What decoding says of a byte string: the verdict on its word, and the bytes after it; none when fewer than eight
bytes stand there, since a command word is indivisible (20_memory.md R53, R54). -/
def decodeBytes (bytes : List Byte) : Option (Verdict × List Byte) :=
  if bytes.length < 8 then none else some (decode (wordOfBytes (bytes.take 8)), bytes.drop 8)

/-- The instruction the decoder reads from the opcode table's `nbits` bits `w`, every bit above them 0; none where it
refuses. A command is one 64-bit word (30_encoding.md R70), so there is no order of words to choose. -/
def decodeTableWord (nbits w : Nat) : Option Instr :=
  (decode (BitVec.ofNat 64 (w % 2 ^ nbits))).toOption

end Sys2Proof
end

