-- ==== Sys2Proof/Config.lean ====
section
/-! DEFINITION. The constants the spec fixes and the parameters it leaves open (00_scope.md R6). -/

namespace Sys2Proof.Config

/-- The Mersenne prime `P = 2^31 - 1` (40_field_scalar.md R100). -/
def P : Nat := 2147483647

/-- The group order `N = P^2 - 1 = 2^62 - 2^32` (41_field_ext.md R123). -/
def N : Nat := 4611686014132420608

/-- The base of Euler's criterion (40_field_scalar.md R107). -/
def irrBase : Nat := 5

/-- The exponent `(P - 1) / 2` of Euler's criterion (40_field_scalar.md R107). -/
def irrExponent : Nat := 1073741823

/-- The target chunk size, 256 KiB (42_transform.md R150). -/
def chunkTarget : Nat := 262144

/-- The least chunk size, 4 KiB (42_transform.md R150). -/
def chunkMin : Nat := 4096

/-- Bytes per element in the chunk computation (42_transform.md R150). -/
def elemBytes : Nat := 8

/-- Decoded bytes lie below this limit (43_frame.md R180). -/
def asciiLimit : Nat := 128

/-- Whether at level 0 the partner of an index is the index itself (43_frame.md R176, R178, R185). The spec fixes
the value `true` and asks that a claim resting on it name it (93_implementation_defined.md U4; log entry 7). -/
def l0SelfPair : Bool := true

/-- The parameters of one block, in the ranges of 00_scope.md R6, held in the 32 bits each has in `CFG`
(10_state.md R31). A value outside the range cannot be written down (93_implementation_defined.md U17; log entry 1). -/
structure Params where
  /-- number of lanes -/
  nlanes : BitVec 32
  /-- capacity in cells of each of the three memories -/
  cap : BitVec 32
  nlanes_pos : nlanes ≠ 0#32
  cap_pos : cap ≠ 0#32
deriving DecidableEq, Repr

/-- OPEN parameter `NLANES`, less one (92_eei_decisions.md D17; log entry 1): any value, none that a proof can see. -/
opaque nlanesLessOne : Fin 4294967295

/-- OPEN parameter `CAP`, less one (92_eei_decisions.md D7; log entry 1): any value, none that a proof can see. -/
opaque capLessOne : Fin 4294967295

theorem ofNat_succ_ne_zero (n : Fin 4294967295) : BitVec.ofNat 32 (n.val + 1) ≠ 0#32 := by
  intro h
  have := congrArg BitVec.toNat h
  simp only [BitVec.toNat_ofNat] at this
  omega

/-- The parameters of the block at hand. -/
def params : Params where
  nlanes := BitVec.ofNat 32 (nlanesLessOne.val + 1)
  cap := BitVec.ofNat 32 (capLessOne.val + 1)
  nlanes_pos := ofNat_succ_ne_zero _
  cap_pos := ofNat_succ_ne_zero _

end Sys2Proof.Config
end

