-- ==== Sys2Proof/Machine/Field.lean ====
section
/-! DEFINITION. GF(P) scalar arithmetic and the modular reducer (40_field_scalar.md R100 to R108). As
 00_scope.md R7 asks, arithmetic is exact on unsigned integers; each result is narrowed to its 31 bits at the end. -/

namespace Sys2Proof.Machine

open Config

/-- The scalar with the given value. -/
def scalarOf (n : Nat) : Scalar := BitVec.ofNat 31 n

/-- One shift-and-mask round of the reducer (40_field_scalar.md R101). -/
def reduceRound (x : Nat) : Nat := (x >>> 31) + (x &&& 0x7FFFFFFF)

/-- The one conditional subtraction of `P` (40_field_scalar.md R101, R103). -/
def subtractP (s : Nat) : Nat := if P ≤ s then s - P else s

/-- `reduce`: two rounds and one conditional subtraction, for every 64-bit input (40_field_scalar.md R101). -/
def reduce (x : Word) : Scalar := scalarOf (subtractP (reduceRound (reduceRound x.toNat)))

/-- `addp` (40_field_scalar.md R103). -/
def addp (a b : Scalar) : Scalar := scalarOf (subtractP (a.toNat + b.toNat))

/-- `subp`: on underflow `P` is added back (40_field_scalar.md R104). -/
def subp (a b : Scalar) : Scalar :=
  scalarOf (if b.toNat ≤ a.toNat then a.toNat - b.toNat else a.toNat + P - b.toNat)

/-- `mulp`: the exact product, reduced (40_field_scalar.md R105). -/
def mulp (a b : Scalar) : Scalar := reduce (BitVec.ofNat 64 (a.toNat * b.toNat))

/-- `negp`: `0` for `0` and `P - a` otherwise (40_field_scalar.md R106). -/
def negp (a : Scalar) : Scalar := scalarOf (if a.toNat = 0 then 0 else P - a.toNat)

/-- `bit_length` (00_scope.md R7). -/
def bitLength (e : Nat) : Nat := if e = 0 then 0 else Nat.log2 e + 1

/-- The square-and-multiply loop of the self-check (40_field_scalar.md R107), `n` iterations from bit `i` of `e`. -/
def scalarPowLoop (e : Nat) : (n i : Nat) → (r b : Scalar) → Scalar
  | 0, _, r, _ => r
  | n + 1, i, r, b => scalarPowLoop e n (i + 1) (if e.testBit i then mulp r b else r) (mulp b b)

/-- `base` to the power `e` in GF(P) by the loop of 40_field_scalar.md R107. -/
def scalarPow (base : Scalar) (e : Nat) : Scalar := scalarPowLoop e (bitLength e) 0 (scalarOf 1) base

/-- `chk_irreducible`: Euler's criterion on the discriminant 5 (40_field_scalar.md R107). -/
def chkIrreducible : Bool := scalarPow (scalarOf irrBase) irrExponent == scalarOf (P - 1)

end Sys2Proof.Machine
end

