-- ==== Sys2Proof/Machine/FieldExt.lean ====
section
/-! DEFINITION. GF(P²) arithmetic, exponentiation and inverse exponentiation (41_field_ext.md R120 to R131). -/

namespace Sys2Proof.Machine

open Config

/-- The zero element (41_field_ext.md R122). -/
def zeroElem : Elem := ⟨0#31, 0#31⟩

/-- The field identity (41_field_ext.md R122). -/
def oneElem : Elem := ⟨1#31, 0#31⟩

/-- `PHI`, the base of all keyed exponentiation (41_field_ext.md R122). -/
def phiElem : Elem := ⟨0#31, 1#31⟩

/-- Both components are scalars (41_field_ext.md R120). -/
def isCanonical (e : Elem) : Bool := decide (e.a.toNat < P) && decide (e.b.toNat < P)

/-- `s2f`, the lift of an unsigned integer (41_field_ext.md R124). -/
def s2f (v : Word) : Elem := ⟨reduce v, 0#31⟩

/-- `addx` (41_field_ext.md R125). -/
def addx (u v : Elem) : Elem := ⟨addp u.a v.a, addp u.b v.b⟩

/-- `subx` (41_field_ext.md R126). -/
def subx (u v : Elem) : Elem := ⟨subp u.a v.a, subp u.b v.b⟩

/-- `negx` (41_field_ext.md R127). -/
def negx (v : Elem) : Elem := ⟨negp v.a, negp v.b⟩

/-- `mulx`, by four scalar products and `x² = x + 1` (41_field_ext.md R128). -/
def mulx (u v : Elem) : Elem :=
  let ac := mulp u.a v.a
  let bd := mulp u.b v.b
  let cross := addp (mulp u.a v.b) (mulp u.b v.a)
  ⟨addp ac bd, addp cross bd⟩

/-- The state of the exponentiation loop: accumulator, running square, and the ghost count of iterations
(41_field_ext.md R129, R130). -/
structure ExpRun where
  acc : Elem
  b : Elem
  iters : Nat
deriving DecidableEq, Repr

/-- The 32-bit mask of an exponent bit (41_field_ext.md R129). -/
def expMask (bit : Bool) : BitVec 32 := 0#32 - (BitVec.ofBool bit).setWidth 32

/-- The branchless select of one component (41_field_ext.md R129). -/
def maskSelect (m : BitVec 32) (cand acc : Scalar) : Scalar :=
  ((cand.setWidth 32 &&& m) ||| (acc.setWidth 32 &&& ~~~m)).setWidth 31

/-- One iteration: multiply-in always computed, masked select, square (41_field_ext.md R129). -/
def expIteration (bit : Bool) (r : ExpRun) : ExpRun :=
  let cand := mulx r.acc r.b
  let m := expMask bit
  { acc := ⟨maskSelect m cand.a r.acc.a, maskSelect m cand.b r.acc.b⟩
    b := mulx r.b r.b
    iters := r.iters + 1 }

/-- `n` iterations from bit `i` of the reduced exponent `k`, least significant bit first (41_field_ext.md R129). -/
def expLoop (k : Nat) : (n i : Nat) → ExpRun → ExpRun
  | 0, _, r => r
  | n + 1, i, r => expLoop k n (i + 1) (expIteration (k.testBit i) r)

/-- `exp_iters`: the bit length of the exponent modulo the group order (41_field_ext.md R130). -/
def expIters (e : Word) : Nat := bitLength (e.toNat % N)

/-- The whole exponentiation, with its ghost count (41_field_ext.md R129, R130). -/
def expRun (base : Elem) (e : Word) : ExpRun :=
  expLoop (e.toNat % N) (expIters e) 0 { acc := oneElem, b := base, iters := 0 }

/-- `expx` (41_field_ext.md R129). -/
def expx (base : Elem) (e : Word) : Elem := (expRun base e).acc

/-- The exponent `(N - (e mod N)) mod N` of the inverse (41_field_ext.md R131). -/
def inverseExponent (e : Word) : Word := BitVec.ofNat 64 ((N - e.toNat % N) % N)

/-- `expix` (41_field_ext.md R131). -/
def expix (base : Elem) (e : Word) : Elem := expx base (inverseExponent e)

end Sys2Proof.Machine
end

