-- ==== Sys2Proof/Machine/State.lean ====
section
/-! DEFINITION. The state of the block, the reasons a step can stop, and the state after reset (10_state.md). -/

namespace Sys2Proof.Machine

/-- The reasons a step of the MODEL can stop. There is none: every command terminates in a next state, "there is no
stuck state at the command level", and a fault of the block is itself a next state, with `FAULT`, `CAUSE` and `FCMD`
written (60_exceptions.md R234, R242; log entry 3). So no constructor stands here, no step can answer a fault, and that
is safe: the model never stops where the block goes on. -/
inductive Fault where
deriving DecidableEq, Repr

/-- The reasons a step can have no meaning. "The spec has no refusals of its own" (60_exceptions.md R242). -/
inductive Refusal where
  /-- Raised by an arm of `exec` whose instruction has no meaning yet; safe, since nothing can be proved of a run that
  stops. No arm raises it. -/
  | notModelled (mnemonic : String)
deriving DecidableEq, Repr

/-- The keyed elements `φᵏ` and `φ⁻ᵏ` (10_state.md R26). -/
structure KeyedPair where
  /-- system register `PHIK` -/
  phik : Elem
  /-- system register `PHINK` -/
  phink : Elem
deriving DecidableEq, Repr

/-- The three private memories (10_state.md R32, 20_memory.md R50). Each is the list of its valid cells, so its size is
the length `LEN`, `BLEN` or `TLEN` and a cell at or above the length has no value (20_memory.md R51; log entry 5). -/
structure Memory where
  /-- the sequence memory `SEQ` -/
  seq : List Elem
  /-- the input byte memory `BYTE` -/
  byte : List Byte
  /-- the output text memory `TEXT` -/
  text : List Byte
deriving DecidableEq, Repr

/-- The architectural state (10_state.md R21), the hardwired parameters it is read against, and the command words that
wait in the channel. -/
structure State where
  /-- `CFG`: the parameters `NLANES` and `CAP`, hardwired (10_state.md R31, R35; log entry 1) -/
  cfg : Config.Params
  /-- the 16 general registers (10_state.md R22) -/
  x : Vector Word 16
  /-- `CC`, the command counter (10_state.md R24) -/
  cc : Word
  /-- `NOP`, the phi pass found the sequence empty (10_state.md R25) -/
  nop : Bool
  /-- `PHIK` and `PHINK`; present exactly when `KV = 1` (10_state.md R25, R26; log entry 4) -/
  keyed : Option KeyedPair
  /-- `CHUNK`, in bytes; present exactly when `CHV = 1` (10_state.md R28; log entry 4) -/
  chunk : Option (BitVec 32)
  /-- `SEQ`, `BYTE`, `TEXT` with `LEN`, `BLEN`, `TLEN` (10_state.md R27, R32) -/
  mem : Memory
  /-- `FAULT` (10_state.md R29) -/
  fault : Bool
  /-- `CAUSE` (10_state.md R29) -/
  cause : BitVec 4
  /-- `FCMD` (10_state.md R29) -/
  fcmd : Word
  /-- `OUT`, the output stream, oldest word first (10_state.md R33) -/
  out : List Word
  /-- the model's own: the command words the host has sent and the sequencer has not taken, oldest first
  (20_memory.md R62; log entry 2) -/
  chan : List Word
deriving DecidableEq, Repr

/-- The state after reset of a block with the given parameters (10_state.md R36, 70_reset_and_hazards.md R260). -/
def State.resetWith (cfg : Config.Params) : State where
  cfg := cfg
  x := Vector.replicate 16 0#64
  cc := 0#64
  nop := false
  keyed := none
  chunk := none
  mem := { seq := [], byte := [], text := [] }
  fault := false
  cause := 0#4
  fcmd := 0#64
  out := []
  chan := []

/-- The state after reset of the block at hand. -/
def State.reset : State := State.resetWith Config.params

end Sys2Proof.Machine
end

