-- ==== Sys2Proof/Machine/Ops.lean ====
section
/-! DEFINITION. The named operations over registers, memories, output stream, fault record and command channel; taking a
fault; what the host can do (00_scope.md R8, 20_memory.md, 60_exceptions.md). -/

namespace Sys2Proof.Machine

/-- The outcome of a command or a step. -/
abbrev Result := Host.Outcome State Fault Refusal

/-! ## Registers, counter, output -/

/-- `x[r]` (00_scope.md R8). -/
def State.reg (s : State) (r : Reg) : Word := s.x.get r

/-- `x[r] <- v` (00_scope.md R8). No register is hardwired (10_state.md R22). -/
def State.setReg (s : State) (r : Reg) (v : Word) : State := { s with x := s.x.set r.val v r.isLt }

/-- `cc <- cc + 1`, modulo 2^64: the command is complete (10_state.md R24). -/
def State.complete (s : State) : State := { s with cc := s.cc + 1#64 }

/-- `emit(v)`: append to the output stream (10_state.md R33). -/
def State.emit (s : State) (v : Word) : State := { s with out := s.out ++ [v] }

/-- Replace the keyed pair; `KV` becomes 1 (43_frame.md R171). -/
def State.setKeyed (s : State) (k : KeyedPair) : State := { s with keyed := some k }

/-- Replace the contents of the memories. -/
def State.setMem (s : State) (m : Memory) : State := { s with mem := m }

/-! ## Memories

`MemRead` and `MemWrite` are defined below the current length only (20_memory.md R51): they answer `none` elsewhere. -/

/-- `MemRead(SEQ:i, 1)`. -/
def Memory.readSeq (m : Memory) (i : Nat) : Option Elem := m.seq[i]?

/-- `MemRead(BYTE:i, 1)`. -/
def Memory.readByte (m : Memory) (i : Nat) : Option Byte := m.byte[i]?

/-- `MemRead(TEXT:i, 1)`. -/
def Memory.readText (m : Memory) (i : Nat) : Option Byte := m.text[i]?

/-- `MemWrite(SEQ:i, 1, e)`. -/
def Memory.writeSeq (m : Memory) (i : Nat) (e : Elem) : Option Memory :=
  if i < m.seq.length then some { m with seq := m.seq.set i e } else none

/-- `MemWrite(BYTE:i, 1, b)`. -/
def Memory.writeByte (m : Memory) (i : Nat) (b : Byte) : Option Memory :=
  if i < m.byte.length then some { m with byte := m.byte.set i b } else none

/-- All of `SEQ` at once, with its length (20_memory.md R51, R52). -/
def Memory.replaceSeq (m : Memory) (cells : List Elem) : Memory := { m with seq := cells }

/-- All of `BYTE` at once, with its length (20_memory.md R51). -/
def Memory.replaceByte (m : Memory) (cells : List Byte) : Memory := { m with byte := cells }

/-- All of `TEXT` at once, with its length (20_memory.md R51, R52). -/
def Memory.replaceText (m : Memory) (cells : List Byte) : Memory := { m with text := cells }

/-- The form of the memories: each length at most `CAP`, every cell of `SEQ` canonical, every cell of `TEXT` below 128
(10_state.md R27, R32). -/
def Memory.wf (cap : Nat) (m : Memory) : Bool :=
  decide (m.seq.length ≤ cap) && decide (m.byte.length ≤ cap) && decide (m.text.length ≤ cap)
    && m.seq.all isCanonical && m.text.all fun b => decide (b.toNat < Config.asciiLimit)

/-! ## Taking a fault -/

/-- The four fault causes (60_exceptions.md R231). -/
inductive FaultCause where
  | illegal
  | noKey
  | index
  | length
deriving DecidableEq, Repr

/-- The code recorded in `CAUSE` (60_exceptions.md R231). -/
def FaultCause.code : FaultCause → BitVec 4
  | .illegal => 1#4
  | .noKey => 2#4
  | .index => 3#4
  | .length => 4#4

/-- `raise Fault(c)` in the command word `w`: the fault record and nothing else (60_exceptions.md R234). There is no
handler and no return; reset alone clears the record (60_exceptions.md R236). -/
def State.raiseFault (s : State) (c : FaultCause) (w : Word) : State :=
  { s with fault := true, cause := c.code, fcmd := w }

/-! ## How a command ends -/

/-- The command completes. -/
def retire (s : State) : Result := .next s.complete

/-- The command writes `v` to `x[rd]` and completes. -/
def writeBack (s : State) (rd : Reg) (v : Word) : Result := retire (s.setReg rd v)

/-- The command `i` faults. Its word is the one it encodes to: decoding is injective, so this is the word that was taken
(30_encoding.md R72; log entry 8). -/
def faultOut (s : State) (c : FaultCause) (i : Instr) : Result := .next (s.raiseFault c (encode i))

/-- The command `i` goes on with what is present, and otherwise faults with the cause `c`. -/
def orFault {α : Type} (o : Option α) (s : State) (c : FaultCause) (i : Instr) (go : α → Result) : Result :=
  match o with
  | some v => go v
  | none => faultOut s c i

/-! ## The command channel and the host -/

/-- The word the sequencer takes next, and the state with it taken from the channel (20_memory.md R62). -/
def State.takeWord (s : State) : Option (Word × State) :=
  match s.chan with
  | [] => none
  | w :: rest => some (w, { s with chan := rest })

/-- The host sends a command word (20_memory.md R62). -/
def State.send (s : State) (w : Word) : State := { s with chan := s.chan ++ [w] }

/-- The host asserts and releases reset: everything but the hardwired parameters is initialised
(10_state.md R36, 70_reset_and_hazards.md R260). -/
def State.assertReset (s : State) : State := State.resetWith s.cfg

/-- What the fault port shows: `FAULT`, `CAUSE`, `FCMD`, `CC` (10_state.md R29). -/
def State.faultPort (s : State) : Bool × BitVec 4 × Word × Word := (s.fault, s.cause, s.fcmd, s.cc)

/-- The state with `w` the next word the sequencer takes. -/
def State.pushWord (s : State) (w : Word) : State := { s with chan := w :: s.chan }

end Sys2Proof.Machine
end

