-- ==== Sys2Proof/Machine/Operands.lean ====
section
/-! DEFINITION. Operand forms: the three views of a register, packed results, and system registers
(10_state.md R23, R31). -/

namespace Sys2Proof.Machine

/-- The integer view, where it is used as an index, a length or a position (10_state.md R23): all 64 bits. -/
def State.intView (s : State) (r : Reg) : Nat := (s.reg r).toNat

/-- The scalar view `scal` (10_state.md R23). -/
def State.scalView (s : State) (r : Reg) : Scalar := reduce (s.reg r)

/-- `elem`: each half of the word reduced, component `a` from the low half (10_state.md R23). -/
def elemOf (v : Word) : Elem :=
  ⟨reduce ((v.extractLsb' 0 32).setWidth 64), reduce ((v.extractLsb' 32 32).setWidth 64)⟩

/-- The element view of a register (10_state.md R23). -/
def State.elemView (s : State) (r : Reg) : Elem := elemOf (s.reg r)

/-- The key a register holds: bits 31:0, the others ignored (43_frame.md R171). -/
def State.keyView (s : State) (r : Reg) : BitVec 32 := (s.reg r).extractLsb' 0 32

/-- The data byte a register holds: bits 7:0 (44_data_movement.md R211). -/
def State.byteView (s : State) (r : Reg) : Byte := (s.reg r).extractLsb' 0 8

/-- A scalar result, zero-extended (10_state.md R23). -/
def scalarWord (v : Scalar) : Word := v.setWidth 64

/-- `pack`: component `b` in the high half, `a` in the low half (10_state.md R23). -/
def pack (e : Elem) : Word := e.b.setWidth 32 ++ e.a.setWidth 32

/-- A yes-or-no result: 1 or 0 (40_field_scalar.md R114, 43_frame.md R179). -/
def boolWord (b : Bool) : Word := if b then 1#64 else 0#64

/-- A byte, zero-extended (44_data_movement.md R210, R212). -/
def byteWord (b : Byte) : Word := b.setWidth 64

/-- The system registers (10_state.md R31). -/
inductive SysReg where
  | status
  | cc
  | len
  | blen
  | tlen
  | phik
  | phink
  | chunk
  | cfg
deriving DecidableEq, Repr

/-- The system register with a number; none for the reserved numbers (10_state.md R31). -/
def sysRegOf (sr : BitVec 32) : Option SysReg :=
  match sr.toNat with
  | 0 => some .status
  | 1 => some .cc
  | 2 => some .len
  | 3 => some .blen
  | 4 => some .tlen
  | 5 => some .phik
  | 6 => some .phink
  | 7 => some .chunk
  | 8 => some .cfg
  | _ => none

/-- `LEN`, 32 bits (10_state.md R27). -/
def State.len (s : State) : BitVec 32 := BitVec.ofNat 32 s.mem.seq.length

/-- `BLEN`, 32 bits (10_state.md R27). -/
def State.blen (s : State) : BitVec 32 := BitVec.ofNat 32 s.mem.byte.length

/-- `TLEN`, 32 bits (10_state.md R27). -/
def State.tlen (s : State) : BitVec 32 := BitVec.ofNat 32 s.mem.text.length

/-- `CFG`: `CAP` in bits 63:32, `NLANES` in bits 31:0 (10_state.md R31). -/
def State.cfgWord (s : State) : Word := s.cfg.cap ++ s.cfg.nlanes

end Sys2Proof.Machine
end

