-- ==== Sys2Proof/Machine/Transform.lean ====
section
/-! DEFINITION. Chunk sizing and the two pass functions (42_transform.md R150, R154, R155). -/

namespace Sys2Proof.Machine

open Config

/-- `chunk_bytes` (42_transform.md R150). -/
def chunkBytes (nlanes : Nat) : Nat := max chunkMin (chunkTarget / nlanes)

/-- `chunk_elems`, the chunk size in cells (42_transform.md R150). -/
def chunkElems (nlanes : Nat) : Nat := chunkBytes nlanes / elemBytes

/-- What the Haar pass makes of the cell with global index `i` (42_transform.md R154). -/
def haarCell (i : Nat) (e : Elem) : Elem := if i % 2 = 1 then negx e else e

/-- `haar_pass`: the sign of every element at an odd global index is flipped (42_transform.md R154). -/
def haarPass (s : List Elem) : List Elem := s.mapIdx haarCell

/-- `phi_pass`: every element times the factor, and the signal "nothing to do" of the empty sequence
(42_transform.md R155). -/
def phiPass (s : List Elem) (f : Elem) : List Elem × Bool := (s.map fun e => mulx e f, s.isEmpty)

end Sys2Proof.Machine
end

