-- ==== Sys2Proof/Machine/Flags.lean ====
section
/-! DEFINITION. The three status flags and the compute-once chunk size (10_state.md R25, R28, 42_transform.md R151). The
block has no arithmetic condition codes (10_state.md R25). -/

namespace Sys2Proof.Machine

/-- `KV`: a key-derived pair is held (10_state.md R25). -/
def State.kv (s : State) : Bool := s.keyed.isSome

/-- `CHV`: the chunk size has been computed (10_state.md R25). -/
def State.chv (s : State) : Bool := s.chunk.isSome

/-- `NOP`, which `PHI` alone writes (10_state.md R25). -/
def State.setNop (s : State) (b : Bool) : State := { s with nop := b }

/-- `STATUS`: `CHV`, `NOP`, `KV` in bits 2, 1, 0; the other bits read as 0 (10_state.md R31, 44_data_movement.md R204). -/
def State.statusWord (s : State) : Word :=
  (BitVec.ofBool s.chv ++ BitVec.ofBool s.nop ++ BitVec.ofBool s.kv).setWidth 64

/-- The value the cache takes on first use (10_state.md R28, 42_transform.md R150). -/
def State.chunkValue (s : State) : BitVec 32 :=
  match s.chunk with
  | some c => c
  | none => BitVec.ofNat 32 (chunkBytes s.cfg.nlanes.toNat)

/-- `chunk_init`: computed once, reused thereafter (42_transform.md R151). -/
def State.chunkInit (s : State) : State := { s with chunk := some s.chunkValue }

end Sys2Proof.Machine
end

