-- ==== Sys2Proof/Machine/DataMovement.lean ====
section
/-! DEFINITION. NOP, LIL, LIH, MOV, RDSR, OUT (44_data_movement.md R200 to R205). -/

namespace Sys2Proof.Machine

/-- `LIL rd, imm32` (44_data_movement.md R201). -/
def execLil (rd : Reg) (imm : BitVec 32) (s : State) : Result := writeBack s rd (imm.setWidth 64)

/-- `LIH rd, imm32`: bits 31:0 are kept (44_data_movement.md R202). -/
def execLih (rd : Reg) (imm : BitVec 32) (s : State) : Result :=
  writeBack s rd (imm ++ (s.reg rd).extractLsb' 0 32)

/-- `MOV rd, rs1`: raw bits (44_data_movement.md R203). -/
def execMov (rd rs1 : Reg) (s : State) : Result := writeBack s rd (s.reg rs1)

/-- `RDSR rd, sr` (44_data_movement.md R204). `CC` is read before this command's increment; `PHIK` and `PHINK` need a
key; `CHUNK` is computed on first use. A reserved number is no command (30_encoding.md R75; log entry 13). -/
def execRdsr (rd : Reg) (sr : BitVec 32) (s : State) : Result :=
  match sysRegOf sr with
  | some .status => writeBack s rd s.statusWord
  | some .cc => writeBack s rd s.cc
  | some .len => writeBack s rd (s.len.setWidth 64)
  | some .blen => writeBack s rd (s.blen.setWidth 64)
  | some .tlen => writeBack s rd (s.tlen.setWidth 64)
  | some .phik => orFault s.keyed s .noKey (.rdsr rd sr) fun k => writeBack s rd (pack k.phik)
  | some .phink => orFault s.keyed s .noKey (.rdsr rd sr) fun k => writeBack s rd (pack k.phink)
  | some .chunk => writeBack s.chunkInit rd (s.chunkValue.setWidth 64)
  | some .cfg => writeBack s rd s.cfgWord
  | none => faultOut s .illegal (.rdsr rd sr)

/-- `OUT rs1`: raw bits (44_data_movement.md R205). -/
def execOut (rs1 : Reg) (s : State) : Result := retire (s.emit (s.reg rs1))

/-- `NOP` (44_data_movement.md R200). -/
def execNop (s : State) : Result := retire s

end Sys2Proof.Machine
end

