-- ==== Sys2Proof/Machine/ExtArith.lean ====
section
/-! DEFINITION. S2F, ADDX, SUBX, NEGX, MULX, EXPX, EXPIX (41_field_ext.md R135 to R141). -/

namespace Sys2Proof.Machine

/-- `S2F rd, rs1` (41_field_ext.md R135). -/
def execS2f (rd rs1 : Reg) (s : State) : Result := writeBack s rd (pack (s2f (s.reg rs1)))

/-- `ADDX rd, rs1, rs2` (41_field_ext.md R136). -/
def execAddx (rd rs1 rs2 : Reg) (s : State) : Result :=
  writeBack s rd (pack (addx (s.elemView rs1) (s.elemView rs2)))

/-- `SUBX rd, rs1, rs2`: rs1 minus rs2 (41_field_ext.md R137). -/
def execSubx (rd rs1 rs2 : Reg) (s : State) : Result :=
  writeBack s rd (pack (subx (s.elemView rs1) (s.elemView rs2)))

/-- `NEGX rd, rs1` (41_field_ext.md R138). -/
def execNegx (rd rs1 : Reg) (s : State) : Result := writeBack s rd (pack (negx (s.elemView rs1)))

/-- `MULX rd, rs1, rs2` (41_field_ext.md R139). -/
def execMulx (rd rs1 rs2 : Reg) (s : State) : Result :=
  writeBack s rd (pack (mulx (s.elemView rs1) (s.elemView rs2)))

/-- `EXPX rd, rs1, rs2`: base from rs1, exponent all 64 bits of rs2 (41_field_ext.md R140). -/
def execExpx (rd rs1 rs2 : Reg) (s : State) : Result :=
  writeBack s rd (pack (expx (s.elemView rs1) (s.reg rs2)))

/-- `EXPIX rd, rs1, rs2` (41_field_ext.md R141). -/
def execExpix (rd rs1 rs2 : Reg) (s : State) : Result :=
  writeBack s rd (pack (expix (s.elemView rs1) (s.reg rs2)))

end Sys2Proof.Machine
end

