-- ==== Sys2Proof/Machine/Frame.lean ====
section
/-! DEFINITION. The frame encoder and decoder as pure functions (43_frame.md R170 to R180). -/

namespace Sys2Proof.Machine

open Config

/-- `keyed`: the pair of a 32-bit key (43_frame.md R170). -/
def keyedOf (key : BitVec 32) : KeyedPair where
  phik := expx phiElem (key.setWidth 64)
  phink := expix phiElem (key.setWidth 64)

/-- `to_freq`: Haar pass, then phi pass, the signal dropped (43_frame.md R172). -/
def toFreq (s : List Elem) (phik : Elem) : List Elem := (phiPass (haarPass s) phik).1

/-- `process_data` (43_frame.md R174). -/
def processData (bytes : List Byte) (phik : Elem) : List Elem :=
  toFreq (bytes.map fun b => s2f (b.setWidth 64)) phik

/-- `span/2`, the distance from a block's start to its partner: unsigned integer division, so 0 at level 0 when an
index there is its own partner, and no partner otherwise (43_frame.md R176, R178; 93_implementation_defined.md U4). -/
def pairHalf (selfPair : Bool) (level : Nat) : Option Nat :=
  if level = 0 && !selfPair then none else some (2 ^ level / 2)

/-- The partner index of `start` at a level, where it lies within a sequence of length `len` (43_frame.md R176, R178). -/
def partnerOf (selfPair : Bool) (len level start : Nat) : Option Nat :=
  match pairHalf selfPair level with
  | none => none
  | some half => if start + half < len then some (start + half) else none

/-- `start = pos · 2^level`, exact (43_frame.md R176). -/
def editStart (level pos : Nat) : Nat := pos * 2 ^ level

/-- `edit_frequency`: the transformed value at `start`, then its negation at the partner; nothing where `start` is out
of bounds (43_frame.md R176). -/
def editFrequency (selfPair : Bool) (s : List Elem) (level pos : Nat) (nv phik : Elem) : List Elem :=
  let start := editStart level pos
  let t := mulx nv phik
  if start < s.length then
    match partnerOf selfPair s.length level start with
    | some q => (s.set start t).set q (negx t)
    | none => s.set start t
  else s

/-- Two cells sum to the zero element (43_frame.md R178). -/
def pairZero (s : List Elem) (p q : Nat) : Bool :=
  match s[p]?, s[q]? with
  | some u, some v => addx u v == zeroElem
  | _, _ => true

/-- The starts of the blocks of a level, a short last block included (43_frame.md R178). -/
def blockStarts (len level : Nat) : List Nat :=
  (List.range ((len + 2 ^ level - 1) / 2 ^ level)).map fun j => j * 2 ^ level

/-- Every block of a level satisfies the pair relation; a partner outside the sequence is not checked
(43_frame.md R178). -/
def verifyLevel (selfPair : Bool) (s : List Elem) (level : Nat) : Bool :=
  (blockStarts s.length level).all fun start =>
    match partnerOf selfPair s.length level start with
    | some q => pairZero s start q
    | none => true

/-- `verify_relationships`: the levels `l` with `2^l ≤ len`, which are those below `bit_length(len)`
(43_frame.md R178). -/
def verifyRelationships (selfPair : Bool) (s : List Elem) : Bool :=
  (List.range (bitLength s.length)).all fun level => verifyLevel selfPair s level

/-- The byte the cell with index `i` decodes to, if any (43_frame.md R180). -/
def decodeCell (i : Nat) (e : Elem) : Option Byte :=
  if e.b = 0#31 then
    let value := if i % 2 = 1 then negp e.a else e.a
    if value.toNat < asciiLimit then some (value.setWidth 8) else none
  else none

/-- `reconstruct`, on a copy of the sequence; the signal of the phi pass is dropped (43_frame.md R180). -/
def reconstruct (s : List Elem) (phink : Elem) : List Byte :=
  ((phiPass s phink).1.mapIdx decodeCell).filterMap id

end Sys2Proof.Machine
end

