-- ==== Sys2Proof/Machine/FrameCommands.lean ====
section
/-! DEFINITION. KEYLD, TOFREQ, PROC, EDIT, VERIFY, RECON (43_frame.md R171 to R181). The key check comes before
`chunk_init` (60_exceptions.md R234). -/

namespace Sys2Proof.Machine

/-- `KEYLD rs1` (43_frame.md R171). -/
def execKeyld (rs1 : Reg) (s : State) : Result := retire (s.setKeyed (keyedOf (s.keyView rs1)))

/-- `TOFREQ`; `NOP` is not written (43_frame.md R173). -/
def execTofreq (s : State) : Result :=
  orFault s.keyed s .noKey .tofreq fun k =>
    retire (s.chunkInit.setMem (s.mem.replaceSeq (toFreq s.mem.seq k.phik)))

/-- `PROC`: a fresh sequence from `BYTE` (43_frame.md R175). -/
def execProc (s : State) : Result :=
  orFault s.keyed s .noKey .proc fun k =>
    retire (s.chunkInit.setMem (s.mem.replaceSeq (processData s.mem.byte k.phik)))

/-- `EDIT rs1, rs2, level` (43_frame.md R177). A level above 63 is no command (30_encoding.md R75; log entry 13). -/
def execEdit (rs1 rs2 : Reg) (level : BitVec 32) (s : State) : Result :=
  if level.toNat ≤ levelLimit then
    orFault s.keyed s .noKey (.edit rs1 rs2 level) fun k =>
      retire (s.setMem (s.mem.replaceSeq
        (editFrequency Config.l0SelfPair s.mem.seq level.toNat (s.intView rs1) (s.elemView rs2) k.phik)))
  else faultOut s .illegal (.edit rs1 rs2 level)

/-- `VERIFY rd`; needs no key (43_frame.md R179). -/
def execVerify (rd : Reg) (s : State) : Result :=
  writeBack s rd (boolWord (verifyRelationships Config.l0SelfPair s.mem.seq))

/-- `RECON`: `SEQ` is not changed (43_frame.md R181). -/
def execRecon (s : State) : Result :=
  orFault s.keyed s .noKey .recon fun k =>
    retire (s.chunkInit.setMem (s.mem.replaceText (reconstruct s.mem.seq k.phink)))

end Sys2Proof.Machine
end

