-- ==== Sys2Proof/Machine/MemoryAccess.lean ====
section
/-! DEFINITION. NEWSEQ, LDE, STE, NEWBUF, LDB, STB, LDT (44_data_movement.md R206 to R212). -/

namespace Sys2Proof.Machine

/-- The length a register asks for, where it is at most `CAP` (44_data_movement.md R206, R209). -/
def State.lengthView (s : State) (r : Reg) : Option Nat :=
  if s.intView r ≤ s.cfg.cap.toNat then some (s.intView r) else none

/-- `NEWSEQ rs1` (44_data_movement.md R206). -/
def execNewseq (rs1 : Reg) (s : State) : Result :=
  orFault (s.lengthView rs1) s .length (.newseq rs1) fun n =>
    retire (s.setMem (s.mem.replaceSeq (List.replicate n zeroElem)))

/-- `LDE rd, rs1` (44_data_movement.md R207). -/
def execLde (rd rs1 : Reg) (s : State) : Result :=
  orFault (s.mem.readSeq (s.intView rs1)) s .index (.lde rd rs1) fun e => writeBack s rd (pack e)

/-- `STE rs1, rs2`: the data is reduced on the way in (44_data_movement.md R208). -/
def execSte (rs1 rs2 : Reg) (s : State) : Result :=
  orFault (s.mem.writeSeq (s.intView rs1) (s.elemView rs2)) s .index (.ste rs1 rs2) fun m => retire (s.setMem m)

/-- `NEWBUF rs1` (44_data_movement.md R209). -/
def execNewbuf (rs1 : Reg) (s : State) : Result :=
  orFault (s.lengthView rs1) s .length (.newbuf rs1) fun n =>
    retire (s.setMem (s.mem.replaceByte (List.replicate n 0#8)))

/-- `LDB rd, rs1` (44_data_movement.md R210). -/
def execLdb (rd rs1 : Reg) (s : State) : Result :=
  orFault (s.mem.readByte (s.intView rs1)) s .index (.ldb rd rs1) fun b => writeBack s rd (byteWord b)

/-- `STB rs1, rs2`: bits 63:8 of the data register are dropped (44_data_movement.md R211). -/
def execStb (rs1 rs2 : Reg) (s : State) : Result :=
  orFault (s.mem.writeByte (s.intView rs1) (s.byteView rs2)) s .index (.stb rs1 rs2) fun m => retire (s.setMem m)

/-- `LDT rd, rs1` (44_data_movement.md R212). -/
def execLdt (rd rs1 : Reg) (s : State) : Result :=
  orFault (s.mem.readText (s.intView rs1)) s .index (.ldt rd rs1) fun b => writeBack s rd (byteWord b)

end Sys2Proof.Machine
end

