-- ==== Sys2Proof/Machine/ScalarArith.lean ====
section
/-! DEFINITION. RED, ADDP, SUBP, MULP, CHKIRR (40_field_scalar.md R110 to R114). -/

namespace Sys2Proof.Machine

/-- `RED rd, rs1` (40_field_scalar.md R110). -/
def execRed (rd rs1 : Reg) (s : State) : Result := writeBack s rd (scalarWord (reduce (s.reg rs1)))

/-- `ADDP rd, rs1, rs2` (40_field_scalar.md R111). -/
def execAddp (rd rs1 rs2 : Reg) (s : State) : Result :=
  writeBack s rd (scalarWord (addp (s.scalView rs1) (s.scalView rs2)))

/-- `SUBP rd, rs1, rs2`: rs1 minus rs2 (40_field_scalar.md R112). -/
def execSubp (rd rs1 rs2 : Reg) (s : State) : Result :=
  writeBack s rd (scalarWord (subp (s.scalView rs1) (s.scalView rs2)))

/-- `MULP rd, rs1, rs2` (40_field_scalar.md R113). -/
def execMulp (rd rs1 rs2 : Reg) (s : State) : Result :=
  writeBack s rd (scalarWord (mulp (s.scalView rs1) (s.scalView rs2)))

/-- `CHKIRR rd` (40_field_scalar.md R114). -/
def execChkirr (rd : Reg) (s : State) : Result := writeBack s rd (boolWord chkIrreducible)

end Sys2Proof.Machine
end

