-- ==== Sys2Proof/Machine/TransformCommands.lean ====
section
/-! DEFINITION. HAAR and PHI (42_transform.md R160, R161). A pass is one atomic map over the cells: its result is the
same for every chunk size and every schedule of the lanes (42_transform.md R156; log entry 6). -/

namespace Sys2Proof.Machine

/-- `HAAR` (42_transform.md R160). -/
def execHaar (s : State) : Result := retire (s.chunkInit.setMem (s.mem.replaceSeq (haarPass s.mem.seq)))

/-- `PHI rs1`; the signal of the pass goes to `NOP` (42_transform.md R161). -/
def execPhi (rs1 : Reg) (s : State) : Result :=
  let pass := phiPass s.mem.seq (s.elemView rs1)
  retire ((s.chunkInit.setMem (s.mem.replaceSeq pass.1)).setNop pass.2)

end Sys2Proof.Machine
end

