-- ==== Sys2Proof/Machine/Dispatch.lean ====
section
/-! DEFINITION. The one match over the commands. -/

namespace Sys2Proof.Machine

/-- What a command does (files 40 to 44 of the spec). -/
def exec (i : Instr) (s : State) : Host.Outcome State Fault Refusal :=
  match i with
  -- data movement and system
  | .lil rd imm => Sys2Proof.Machine.execLil rd imm s
  | .lih rd imm => Sys2Proof.Machine.execLih rd imm s
  | .mov rd rs1 => Sys2Proof.Machine.execMov rd rs1 s
  | .rdsr rd sr => Sys2Proof.Machine.execRdsr rd sr s
  | .out rs1 => Sys2Proof.Machine.execOut rs1 s
  | .nop => Sys2Proof.Machine.execNop s
  -- GF(P)
  | .red rd rs1 => Sys2Proof.Machine.execRed rd rs1 s
  | .addp rd rs1 rs2 => Sys2Proof.Machine.execAddp rd rs1 rs2 s
  | .subp rd rs1 rs2 => Sys2Proof.Machine.execSubp rd rs1 rs2 s
  | .mulp rd rs1 rs2 => Sys2Proof.Machine.execMulp rd rs1 rs2 s
  | .chkirr rd => Sys2Proof.Machine.execChkirr rd s
  -- GF(P²)
  | .s2f rd rs1 => Sys2Proof.Machine.execS2f rd rs1 s
  | .addx rd rs1 rs2 => Sys2Proof.Machine.execAddx rd rs1 rs2 s
  | .subx rd rs1 rs2 => Sys2Proof.Machine.execSubx rd rs1 rs2 s
  | .negx rd rs1 => Sys2Proof.Machine.execNegx rd rs1 s
  | .mulx rd rs1 rs2 => Sys2Proof.Machine.execMulx rd rs1 rs2 s
  | .expx rd rs1 rs2 => Sys2Proof.Machine.execExpx rd rs1 rs2 s
  | .expix rd rs1 rs2 => Sys2Proof.Machine.execExpix rd rs1 rs2 s
  -- memories
  | .newseq rs1 => Sys2Proof.Machine.execNewseq rs1 s
  | .lde rd rs1 => Sys2Proof.Machine.execLde rd rs1 s
  | .ste rs1 rs2 => Sys2Proof.Machine.execSte rs1 rs2 s
  | .newbuf rs1 => Sys2Proof.Machine.execNewbuf rs1 s
  | .ldb rd rs1 => Sys2Proof.Machine.execLdb rd rs1 s
  | .stb rs1 rs2 => Sys2Proof.Machine.execStb rs1 rs2 s
  | .ldt rd rs1 => Sys2Proof.Machine.execLdt rd rs1 s
  -- transform
  | .haar => Sys2Proof.Machine.execHaar s
  | .phi rs1 => Sys2Proof.Machine.execPhi rs1 s
  -- frame
  | .keyld rs1 => Sys2Proof.Machine.execKeyld rs1 s
  | .tofreq => Sys2Proof.Machine.execTofreq s
  | .proc => Sys2Proof.Machine.execProc s
  | .edit rs1 rs2 level => Sys2Proof.Machine.execEdit rs1 rs2 level s
  | .verify rd => Sys2Proof.Machine.execVerify rd s
  | .recon => Sys2Proof.Machine.execRecon s

end Sys2Proof.Machine
end

