-- ==== Sys2Proof/Machine/Step.lean ====
section
/-! DEFINITION. One turn of the sequencer (10_state.md R20, 60_exceptions.md R242). -/

namespace Sys2Proof.Machine

/-- One step of the sequencer (60_exceptions.md R242): with no word in the channel it idles with all state held
(60_exceptions.md R241); while `FAULT = 1` the word is discarded (60_exceptions.md R235); an illegal word faults before
any state is read (60_exceptions.md R233); any other word is the command it decodes to. -/
def step (s : State) : Host.Outcome State Fault Refusal :=
  match s.takeWord with
  | none => .next s
  | some (w, s') =>
    if s.fault then .next s'
    else match decode w with
      | .command i => exec i s'
      | .illegal _ => .next (s'.raiseFault .illegal w)

/-- The state with the opcode table's `nbits` bits `w` as the next word in the command channel (log entry 2). -/
def State.withFetchWord (s : State) (nbits w : Nat) : State :=
  s.pushWord (BitVec.ofNat 64 (w % 2 ^ nbits))

end Sys2Proof.Machine
end

