-- ==== Sys2Proof/Machine/Assembly.lean ====
section
/-! DEFINITION. Assembler spelling and the two pseudo-commands (30_encoding.md R77, R78). No step depends on them. -/

namespace Sys2Proof.Machine

/-- `LI rd, imm64`: two commands (30_encoding.md R78). -/
def pseudoLi (rd : Reg) (v : Word) : List Instr :=
  [.lil rd (v.extractLsb' 0 32), .lih rd (v.extractLsb' 32 32)]

/-- `LIE rd, a, b`: two commands (30_encoding.md R78). -/
def pseudoLie (rd : Reg) (a b : BitVec 32) : List Instr := [.lil rd a, .lih rd b]

/-- The mnemonic of a command (30_encoding.md R74). -/
def mnemonicOf (i : Instr) : String :=
  match rowOf i.fields.opcode with
  | some r => r.mnemonic
  | none => ""

/-- A register in assembly text (30_encoding.md R77). -/
def regText (r : Reg) : String := "r" ++ toString r.val

/-- An immediate in assembly text, in decimal (30_encoding.md R77). -/
def immText (v : BitVec 32) : String := toString v.toNat

/-- The operands of a command in the order of the operands column (30_encoding.md R74, R77). -/
def operandTexts : Instr → List String
  | .lil rd v | .lih rd v | .rdsr rd v => [regText rd, immText v]
  | .mov rd rs1 | .red rd rs1 | .s2f rd rs1 | .negx rd rs1 | .lde rd rs1 | .ldb rd rs1 | .ldt rd rs1 =>
    [regText rd, regText rs1]
  | .addp rd rs1 rs2 | .subp rd rs1 rs2 | .mulp rd rs1 rs2 | .addx rd rs1 rs2 | .subx rd rs1 rs2
  | .mulx rd rs1 rs2 | .expx rd rs1 rs2 | .expix rd rs1 rs2 => [regText rd, regText rs1, regText rs2]
  | .ste rs1 rs2 | .stb rs1 rs2 => [regText rs1, regText rs2]
  | .edit rs1 rs2 level => [regText rs1, regText rs2, immText level]
  | .out rs1 | .newseq rs1 | .newbuf rs1 | .phi rs1 | .keyld rs1 => [regText rs1]
  | .chkirr rd | .verify rd => [regText rd]
  | .nop | .haar | .tofreq | .proc | .recon => []

/-- One line of assembly text (30_encoding.md R77). -/
def assemblyLine (i : Instr) : String :=
  match operandTexts i with
  | [] => mnemonicOf i
  | ops => mnemonicOf i ++ " " ++ String.intercalate ", " ops

end Sys2Proof.Machine
end

