-- ==== Sys2Proof/Machine/Lanes.lean ====
section
/-! DEFINITION. The lanes of a pass: chunks, and a pass as any interleaving of lane steps (42_transform.md R152, R156,
20_memory.md R57). The sequencer's step does not call these: it takes a pass as one map, which R156 allows, and that
every schedule gives the same cells is a statement for the provers (log entry 6). -/

namespace Sys2Proof.Machine

/-- How many chunks a sequence of length `len` has: `ceil(len / elems)` (42_transform.md R152). -/
def chunkCount (elems len : Nat) : Nat := (len + elems - 1) / elems

/-- The global indices chunk `c` covers; the last chunk may be short (42_transform.md R152). -/
def chunkIndices (elems len c : Nat) : List Nat :=
  (List.range (min elems (len - c * elems))).map fun j => c * elems + j

/-- The partition of a sequence into contiguous chunks (42_transform.md R152). -/
def chunks (elems len : Nat) : List (List Nat) :=
  (List.range (chunkCount elems len)).map (chunkIndices elems len)

/-- One lane step: one read and one write of the same cell (42_transform.md R156). `f` may depend on the global index,
as the Haar pass does. -/
def laneStep (f : Nat → Elem → Elem) (cells : List Elem) (i : Nat) : List Elem := cells.modify i (f i)

/-- A pass whose lane steps happen in the order of `schedule`. A schedule of a pass is any permutation of the indices of
all chunks: any assignment of chunks to lanes and any interleaving of the lanes (42_transform.md R152). -/
def runLanes (f : Nat → Elem → Elem) (schedule : List Nat) (cells : List Elem) : List Elem :=
  schedule.foldl (laneStep f) cells

end Sys2Proof.Machine
end

