-- ==== Sys2Proof/Machine/Timing.lean ====
section
/-! DEFINITION. The one timing quantity of the spec: the iterations of each exponentiation of a command
(41_field_ext.md R130, 70_reset_and_hazards.md R265). It is a ghost output: no state holds it (log entry 12). -/

namespace Sys2Proof.Machine

/-- The iteration counts of the exponentiations the command makes in the state, in order
(70_reset_and_hazards.md R265). -/
def iterations (i : Instr) (s : State) : List Nat :=
  match i with
  | .expx _ rs1 rs2 => [(expRun (s.elemView rs1) (s.reg rs2)).iters]
  | .expix _ rs1 rs2 => [(expRun (s.elemView rs1) (inverseExponent (s.reg rs2))).iters]
  | .keyld rs1 =>
    let key := (s.keyView rs1).setWidth 64
    [(expRun phiElem key).iters, (expRun phiElem (inverseExponent key)).iters]
  | .lil _ _ | .lih _ _ | .mov _ _ | .rdsr _ _ | .out _ | .nop | .red _ _ | .addp _ _ _ | .subp _ _ _
  | .mulp _ _ _ | .chkirr _ | .s2f _ _ | .addx _ _ _ | .subx _ _ _ | .negx _ _ | .mulx _ _ _ | .newseq _
  | .lde _ _ | .ste _ _ | .newbuf _ | .ldb _ _ | .stb _ _ | .ldt _ _ | .haar | .phi _ | .tofreq | .proc
  | .edit _ _ _ | .verify _ | .recon => []

end Sys2Proof.Machine
end

