-- ==== Sys2Proof/Safety.lean ====
section
/-! DEFINITION. What statements are written in: the invariant of the state, what a command leaves unchanged, and when a
run has gone right. -/

namespace Sys2Proof.Machine

open Config

/-! ## The invariant of the state -/

/-- A held pair is canonical and its product is the identity: the standing invariant (10_state.md R26). -/
def keyedOk (keyed : Option KeyedPair) : Bool :=
  match keyed with
  | none => true
  | some k => isCanonical k.phik && isCanonical k.phink && mulx k.phik k.phink == oneElem

/-- A held chunk size is the one value it can hold (10_state.md R28, R31). -/
def chunkOk (cfg : Params) (chunk : Option (BitVec 32)) : Bool :=
  match chunk with
  | none => true
  | some c => c == BitVec.ofNat 32 (chunkBytes cfg.nlanes.toNat)

/-- The fault record: code 0 and word 0 without a fault, a code from 1 to 4 with one (10_state.md R29, R36,
60_exceptions.md R231). -/
def faultRecordOk (s : State) : Bool :=
  if s.fault then decide (1 ≤ s.cause.toNat ∧ s.cause.toNat ≤ 4) else s.cause == 0#4 && s.fcmd == 0#64

/-- The invariant every step keeps: lengths at most `CAP` and cells in range (10_state.md R27, R32), the standing
invariant of the keyed pair (R26), the one value of `CHUNK` (R28), the fault record (R29). -/
def State.ok (s : State) : Bool :=
  s.mem.wf s.cfg.cap.toNat && keyedOk s.keyed && chunkOk s.cfg s.chunk && faultRecordOk s

/-! ## What a command leaves unchanged -/

/-- Every general register but `rd` reads as before. -/
def SameRegsExcept (rd : Reg) (s t : State) : Prop := ∀ r : Reg, r ≠ rd → t.reg r = s.reg r

/-- Every general register reads as before. -/
def SameRegs (s t : State) : Prop := ∀ r : Reg, t.reg r = s.reg r

/-- `SEQ` and `LEN`: every cell reads as before. -/
def SameSeq (s t : State) : Prop := t.mem.seq.length = s.mem.seq.length ∧ ∀ i, t.mem.readSeq i = s.mem.readSeq i

/-- `BYTE` and `BLEN`: every cell reads as before. -/
def SameByte (s t : State) : Prop :=
  t.mem.byte.length = s.mem.byte.length ∧ ∀ i, t.mem.readByte i = s.mem.readByte i

/-- `TEXT` and `TLEN`: every cell reads as before. -/
def SameText (s t : State) : Prop :=
  t.mem.text.length = s.mem.text.length ∧ ∀ i, t.mem.readText i = s.mem.readText i

/-- All three memories. -/
def SameMem (s t : State) : Prop := SameSeq s t ∧ SameByte s t ∧ SameText s t

/-- `KV`, `PHIK`, `PHINK`. -/
def SameKeyed (s t : State) : Prop := t.keyed = s.keyed

/-- `CHV` and `CHUNK`. -/
def SameChunk (s t : State) : Prop := t.chunk = s.chunk

/-- The output stream. -/
def SameOut (s t : State) : Prop := t.out = s.out

/-- The fault record, the hardwired parameters and the words still in the channel: what no completing command
writes. -/
def SameRest (s t : State) : Prop :=
  t.fault = s.fault ∧ t.cause = s.cause ∧ t.fcmd = s.fcmd ∧ t.cfg = s.cfg ∧ t.chan = s.chan

/-- The command completed: `CC` advanced by one and the fault record was not written (10_state.md R24). -/
def Completed (s t : State) : Prop := t.cc = s.cc + 1#64 ∧ SameRest s t

/-- The command completed and wrote `x[rd]` only. -/
def OnlyReg (rd : Reg) (s t : State) : Prop :=
  Completed s t ∧ SameRegsExcept rd s t ∧ t.nop = s.nop ∧ SameKeyed s t ∧ SameChunk s t ∧ SameMem s t ∧ SameOut s t

/-- The command completed and wrote `SEQ` only; what became of `CHUNK` and of the cells is said beside it. -/
def OnlySeq (s t : State) : Prop :=
  Completed s t ∧ SameRegs s t ∧ t.nop = s.nop ∧ SameKeyed s t ∧ SameByte s t ∧ SameText s t ∧ SameOut s t

/-- The command completed and wrote `BYTE` only. -/
def OnlyByte (s t : State) : Prop :=
  Completed s t ∧ SameRegs s t ∧ t.nop = s.nop ∧ SameKeyed s t ∧ SameChunk s t ∧ SameSeq s t ∧ SameText s t
    ∧ SameOut s t

/-- The chunk size was computed if it had not been, and otherwise kept (42_transform.md R151). -/
def ChunkUsed (s t : State) : Prop :=
  t.chunk = some (s.chunk.getD (BitVec.ofNat 32 (chunkBytes s.cfg.nlanes.toNat)))

/-- The fault `c` was taken in the word `w`, and nothing else happened (60_exceptions.md R234). -/
def Faulted (c : FaultCause) (w : Word) (s t : State) : Prop :=
  t = { s with fault := true, cause := c.code, fcmd := w }

/-! ## The written word of a command -/

/-- A register field: the register's number, or 0 where the command does not use the field (30_encoding.md R72). -/
def usedField (r : Option Reg) : BitVec 4 :=
  match r with
  | some r => regField r
  | none => 0#4

/-- The word with these fields, `zero` at 0, decodes to the command (30_encoding.md R71, R74). -/
def Encodes (opcode : BitVec 8) (rd rs1 rs2 : Option Reg) (imm : BitVec 32) (i : Instr) : Prop :=
  decode (wordOf ⟨opcode, usedField rd, usedField rs1, usedField rs2, 0#12, imm⟩) = .command i

/-! ## Values, as numbers

The rules' values written out as residues, apart from the functions the meanings call. -/

/-- Component `a` of the element view of a word (10_state.md R23). -/
def lowRes (v : Word) : Nat := v.toNat % 2 ^ 32 % P

/-- Component `b` of the element view of a word (10_state.md R23). -/
def highRes (v : Word) : Nat := v.toNat / 2 ^ 32 % P

/-- The packed word of the element `(a, b)`, as a number (10_state.md R23). -/
def elemNat (a b : Nat) : Nat := b * 2 ^ 32 + a

/-- `e` is the element `(a, b)`. -/
def IsElem (e : Elem) (a b : Nat) : Prop := e.a.toNat = a ∧ e.b.toNat = b

/-- `e` is the product of `(a, b)` and `(c, d)` by `x² = x + 1` (41_field_ext.md R128). -/
def IsProduct (e : Elem) (a b c d : Nat) : Prop := IsElem e ((a * c + b * d) % P) ((a * d + b * c + b * d) % P)

/-- The residue with its sign flipped at an odd index (42_transform.md R154). -/
def signed (i v : Nat) : Nat := if i % 2 = 1 then (P - v) % P else v

/-- The `n`-th power by repeated multiplication, the empty product for 0 (41_field_ext.md R129). -/
def elemPow (base : Elem) : Nat → Elem
  | 0 => oneElem
  | n + 1 => mulx (elemPow base n) base

/-- The value the element `(a, b)` at index `i` decodes to under the inverse keyed element `(c, d)`, if any
(43_frame.md R180). -/
def decodedValue (i a b c d : Nat) : Option Nat :=
  if (a * d + b * c + b * d) % P = 0 then
    if signed i ((a * c + b * d) % P) < 128 then some (signed i ((a * c + b * d) % P)) else none
  else none

/-! ## When a command faults -/

/-- The fault a decoded command raises in a state, by the table of causes (60_exceptions.md R231). -/
def faultDue (i : Instr) (s : State) : Option FaultCause :=
  match i with
  | .tofreq | .proc | .edit _ _ _ | .recon => if s.kv then none else some .noKey
  | .rdsr _ sr => if (sr = 5#32 ∨ sr = 6#32) ∧ s.kv = false then some .noKey else none
  | .lde _ rs1 | .ste rs1 _ => if s.mem.seq.length ≤ (s.reg rs1).toNat then some .index else none
  | .ldb _ rs1 | .stb rs1 _ => if s.mem.byte.length ≤ (s.reg rs1).toNat then some .index else none
  | .ldt _ rs1 => if s.mem.text.length ≤ (s.reg rs1).toNat then some .index else none
  | .newseq rs1 | .newbuf rs1 => if s.cfg.cap.toNat < (s.reg rs1).toNat then some .length else none
  | .lil _ _ | .lih _ _ | .mov _ _ | .out _ | .nop | .red _ _ | .addp _ _ _ | .subp _ _ _ | .mulp _ _ _
  | .chkirr _ | .s2f _ _ | .addx _ _ _ | .subx _ _ _ | .negx _ _ | .mulx _ _ _ | .expx _ _ _ | .expix _ _ _
  | .haar | .phi _ | .keyld _ | .verify _ => none

/-! ## Runs -/

/-- The commands one after another. -/
def execAll : List Instr → State → Result
  | [], s => .next s
  | i :: rest, s =>
    match exec i s with
    | .next t => execAll rest t
    | .fault r => .fault r
    | .refused r => .refused r

/-- The run of the words in the channel has gone right: all taken, no fault, and `CC` counts them
(70_reset_and_hazards.md R268). -/
def WentRight (s t : State) : Prop :=
  t.chan = [] ∧ t.fault = false ∧ t.cc = s.cc + BitVec.ofNat 64 s.chan.length

/-- The run has gone wrong: all words taken, and `CC` and `FCMD` name the faulting one (70_reset_and_hazards.md R268). -/
def WentWrong (s t : State) : Prop :=
  t.chan = [] ∧ t.fault = true ∧
    ∃ k, k < s.chan.length ∧ t.cc = s.cc + BitVec.ofNat 64 k ∧ s.chan[k]? = some t.fcmd

end Sys2Proof.Machine
end

