-- ==== Sys2Proof/Certificates/Slice0/Obligations.lean ====
section
/-! DEFINITION. The statements for the provers: what the rules of the spec say of this machine. -/

open Sys2Proof Sys2Proof.Machine Sys2Proof.Config

/-! ## The reducer and the field -/

/-- R102: `reduce` is the residue of every 64-bit word, with the bounds of its two rounds. -/
def Obligations.ReducerGivesResidue : Prop :=
  ∀ x : Word,
    (reduce x).toNat < P ∧ (reduce x).toNat % P = x.toNat % P
      ∧ reduceRound x.toNat ≤ 2 ^ 33 + 2 ^ 31 - 2
      ∧ reduceRound (reduceRound x.toNat) ≤ P + 4
      ∧ (P ≤ reduceRound (reduceRound x.toNat) → (reduce x).toNat ≤ 4)
      ∧ (x.toNat ≤ (P - 1) ^ 2 →
          reduceRound x.toNat < 2 ^ 32 ∧ reduceRound (reduceRound x.toNat) ≤ P + 1)

/-- R110: `RED` writes the residue of all 64 bits, zero-extended. -/
def Obligations.RedWritesResidue : Prop :=
  ∀ (rd rs1 : Reg) (s : State),
    Encodes 0x10#8 (some rd) (some rs1) none 0#32 (.red rd rs1) ∧
    ∃ t, exec (.red rd rs1) s = .next t ∧ OnlyReg rd s t ∧ (t.reg rd).toNat = (s.reg rs1).toNat % P

/-- R111, R112, R113: the three scalar commands compute modulo `P` on whole registers taken modulo `P`. -/
def Obligations.ScalarCommandsComputeModP : Prop :=
  ∀ (rd rs1 rs2 : Reg) (s : State),
    (Encodes 0x11#8 (some rd) (some rs1) (some rs2) 0#32 (.addp rd rs1 rs2) ∧
      ∃ t, exec (.addp rd rs1 rs2) s = .next t ∧ OnlyReg rd s t ∧
        (t.reg rd).toNat = ((s.reg rs1).toNat % P + (s.reg rs2).toNat % P) % P) ∧
    (Encodes 0x12#8 (some rd) (some rs1) (some rs2) 0#32 (.subp rd rs1 rs2) ∧
      ∃ t, exec (.subp rd rs1 rs2) s = .next t ∧ OnlyReg rd s t ∧
        (t.reg rd).toNat = ((s.reg rs1).toNat % P + P - (s.reg rs2).toNat % P) % P) ∧
    (Encodes 0x13#8 (some rd) (some rs1) (some rs2) 0#32 (.mulp rd rs1 rs2) ∧
      ∃ t, exec (.mulp rd rs1 rs2) s = .next t ∧ OnlyReg rd s t ∧
        (t.reg rd).toNat = ((s.reg rs1).toNat % P * ((s.reg rs2).toNat % P)) % P)

/-- R114, R107: the self-check decides Euler's criterion for 5, which holds, and `CHKIRR` writes 1. -/
def Obligations.SelfCheckDecidesEulerCriterion : Prop :=
  (chkIrreducible = true ↔ (5 : ZMod P) ^ ((P - 1) / 2) = -1) ∧ chkIrreducible = true ∧
  ∀ (rd : Reg) (s : State),
    Encodes 0x14#8 (some rd) none none 0#32 (.chkirr rd) ∧
    ∃ t, exec (.chkirr rd) s = .next t ∧ OnlyReg rd s t ∧ t.reg rd = 1#64

/-- R135: `S2F` writes the lifted scalar, component `b` zero. -/
def Obligations.S2fWritesLiftedScalar : Prop :=
  ∀ (rd rs1 : Reg) (s : State),
    Encodes 0x20#8 (some rd) (some rs1) none 0#32 (.s2f rd rs1) ∧
    ∃ t, exec (.s2f rd rs1) s = .next t ∧ OnlyReg rd s t ∧
      (t.reg rd).toNat = elemNat ((s.reg rs1).toNat % P) 0

/-- R136, R137, R138: sum, difference and negation act on each half of the registers taken modulo `P`. -/
def Obligations.ExtensionSumsActByComponent : Prop :=
  ∀ (rd rs1 rs2 : Reg) (s : State),
    (Encodes 0x21#8 (some rd) (some rs1) (some rs2) 0#32 (.addx rd rs1 rs2) ∧
      ∃ t, exec (.addx rd rs1 rs2) s = .next t ∧ OnlyReg rd s t ∧
        (t.reg rd).toNat = elemNat ((lowRes (s.reg rs1) + lowRes (s.reg rs2)) % P)
          ((highRes (s.reg rs1) + highRes (s.reg rs2)) % P)) ∧
    (Encodes 0x22#8 (some rd) (some rs1) (some rs2) 0#32 (.subx rd rs1 rs2) ∧
      ∃ t, exec (.subx rd rs1 rs2) s = .next t ∧ OnlyReg rd s t ∧
        (t.reg rd).toNat = elemNat ((lowRes (s.reg rs1) + P - lowRes (s.reg rs2)) % P)
          ((highRes (s.reg rs1) + P - highRes (s.reg rs2)) % P)) ∧
    (Encodes 0x23#8 (some rd) (some rs1) none 0#32 (.negx rd rs1) ∧
      ∃ t, exec (.negx rd rs1) s = .next t ∧ OnlyReg rd s t ∧
        (t.reg rd).toNat = elemNat ((P - lowRes (s.reg rs1)) % P) ((P - highRes (s.reg rs1)) % P))

/-- R139: `MULX` multiplies modulo `P` and `x² = x + 1`. -/
def Obligations.MulxMultipliesModuloPolynomial : Prop :=
  ∀ (rd rs1 rs2 : Reg) (s : State),
    Encodes 0x24#8 (some rd) (some rs1) (some rs2) 0#32 (.mulx rd rs1 rs2) ∧
    ∃ t, exec (.mulx rd rs1 rs2) s = .next t ∧ OnlyReg rd s t ∧
      (t.reg rd).toNat = elemNat
        ((lowRes (s.reg rs1) * lowRes (s.reg rs2) + highRes (s.reg rs1) * highRes (s.reg rs2)) % P)
        ((lowRes (s.reg rs1) * highRes (s.reg rs2) + highRes (s.reg rs1) * lowRes (s.reg rs2)
          + highRes (s.reg rs1) * highRes (s.reg rs2)) % P)

/-- R125, R127, R128: canonical elements under `addx` and `mulx` obey the laws of a commutative ring. -/
def Obligations.CanonicalElementsFormRing : Prop :=
  ∀ u v w : Elem, isCanonical u = true → isCanonical v = true → isCanonical w = true →
    isCanonical (addx u v) = true ∧ isCanonical (mulx u v) = true ∧ isCanonical (negx u) = true ∧
    addx u v = addx v u ∧ addx (addx u v) w = addx u (addx v w) ∧ addx u zeroElem = u ∧
    addx u (negx u) = zeroElem ∧ negx (negx u) = u ∧ subx u v = addx u (negx v) ∧
    mulx u v = mulx v u ∧ mulx (mulx u v) w = mulx u (mulx v w) ∧ mulx oneElem u = u ∧
    mulx zeroElem u = zeroElem ∧ mulx u (addx v w) = addx (mulx u v) (mulx u w)

/-- R140: `EXPX` writes the power whose exponent is the whole register modulo `N`, in `exp_iters` iterations. -/
def Obligations.ExpxWritesPower : Prop :=
  ∀ (rd rs1 rs2 : Reg) (s : State),
    Encodes 0x25#8 (some rd) (some rs1) (some rs2) 0#32 (.expx rd rs1 rs2) ∧
    iterations (.expx rd rs1 rs2) s = [bitLength ((s.reg rs2).toNat % N)] ∧
    ∃ t, exec (.expx rd rs1 rs2) s = .next t ∧ OnlyReg rd s t ∧
      ∃ base e : Elem, IsElem base (lowRes (s.reg rs1)) (highRes (s.reg rs1)) ∧
        e = elemPow base ((s.reg rs2).toNat % N) ∧ (t.reg rd).toNat = elemNat e.a.toNat e.b.toNat

/-- R141, but for the product law, which `NonzeroElementsHaveInversePowers` states: `EXPIX` writes the power with the
exponent negated modulo `N`. -/
def Obligations.ExpixWritesInversePower : Prop :=
  ∀ (rd rs1 rs2 : Reg) (s : State),
    Encodes 0x26#8 (some rd) (some rs1) (some rs2) 0#32 (.expix rd rs1 rs2) ∧
    iterations (.expix rd rs1 rs2) s = [bitLength ((N - (s.reg rs2).toNat % N) % N)] ∧
    ∃ t, exec (.expix rd rs1 rs2) s = .next t ∧ OnlyReg rd s t ∧
      ∃ base e : Elem, IsElem base (lowRes (s.reg rs1)) (highRes (s.reg rs1)) ∧
        e = elemPow base ((N - (s.reg rs2).toNat % N) % N) ∧ (t.reg rd).toNat = elemNat e.a.toNat e.b.toNat

/-- R130: the iteration count is the bit length of the reduced exponent, at most 62, whatever the base. -/
def Obligations.IterationCountIgnoresBase : Prop :=
  ∀ (b c : Elem) (e : Word),
    (expRun b e).iters = bitLength (e.toNat % N) ∧ (expRun c e).iters = (expRun b e).iters ∧
      (expRun b e).iters ≤ 62 ∧ ((expRun b e).iters = 0 ↔ e.toNat % N = 0)

/-- R132, the inverse law: for every key the two keyed elements multiply to the identity. -/
def Obligations.KeyedPairMultipliesToIdentity : Prop :=
  ∀ key : BitVec 32,
    isCanonical (keyedOf key).phik = true ∧ isCanonical (keyedOf key).phink = true ∧
      mulx (keyedOf key).phik (keyedOf key).phink = oneElem

/-- R132: powers of the generator are pairs of consecutive Fibonacci numbers modulo `P`. -/
def Obligations.GeneratorPowersAreFibonacciPairs : Prop :=
  ∀ e : Word, 1 ≤ e.toNat → IsElem (expx phiElem e) (Nat.fib (e.toNat - 1) % P) (Nat.fib e.toNat % P)

/-- R132: the order of the generator is exactly `2^32`, so different keys give different keyed elements. -/
def Obligations.GeneratorHasOrderTwoPow32 : Prop :=
  IsElem (expx phiElem 0x80000000#64) (P - 1) 0 ∧ expx phiElem 0x100000000#64 = oneElem ∧
    (∀ e : Word, 0 < e.toNat → e.toNat < 2 ^ 32 → expx phiElem e ≠ oneElem) ∧
    ∀ k l : BitVec 32, (keyedOf k).phik = (keyedOf l).phik → k = l

/-- R131: for every non-zero element the inverse power is the inverse of the power, so `GF(P²)` is a field. -/
def Obligations.NonzeroElementsHaveInversePowers : Prop :=
  ∀ (b : Elem) (e : Word), isCanonical b = true → b ≠ zeroElem → mulx (expx b e) (expix b e) = oneElem

/-! ## Data movement and system commands -/

/-- R200: `NOP` changes `CC` and nothing else. -/
def Obligations.NopAdvancesCounterOnly : Prop :=
  ∀ s : State, Encodes 0x06#8 none none none 0#32 .nop ∧ exec .nop s = .next { s with cc := s.cc + 1#64 }

/-- R201, R202, R203: immediates and copies are raw bits. -/
def Obligations.ImmediatesAndMovesAreRaw : Prop :=
  ∀ (rd rs1 : Reg) (imm : BitVec 32) (s : State),
    (Encodes 0x01#8 (some rd) none none imm (.lil rd imm) ∧
      ∃ t, exec (.lil rd imm) s = .next t ∧ OnlyReg rd s t ∧ (t.reg rd).toNat = imm.toNat) ∧
    (Encodes 0x02#8 (some rd) none none imm (.lih rd imm) ∧
      ∃ t, exec (.lih rd imm) s = .next t ∧ OnlyReg rd s t ∧
        (t.reg rd).toNat = imm.toNat * 2 ^ 32 + (s.reg rd).toNat % 2 ^ 32) ∧
    (Encodes 0x03#8 (some rd) (some rs1) none 0#32 (.mov rd rs1) ∧
      ∃ t, exec (.mov rd rs1) s = .next t ∧ OnlyReg rd s t ∧ t.reg rd = s.reg rs1)

/-- R78: each pseudo-command is two commands, and they build the constant. -/
def Obligations.PseudoCommandsBuildConstants : Prop :=
  ∀ (rd : Reg) (v : Word) (a b : BitVec 32) (s : State),
    pseudoLi rd v = [.lil rd (v.extractLsb' 0 32), .lih rd (v.extractLsb' 32 32)] ∧
    pseudoLie rd a b = [.lil rd a, .lih rd b] ∧
    (∃ t, execAll (pseudoLi rd v) s = .next t ∧ SameRegsExcept rd s t ∧ t.reg rd = v ∧ t.cc = s.cc + 2#64) ∧
    ∃ t, execAll (pseudoLie rd a b) s = .next t ∧ SameRegsExcept rd s t ∧ t.reg rd = b ++ a ∧
      t.cc = s.cc + 2#64 ∧ IsElem (t.elemView rd) (a.toNat % P) (b.toNat % P)

/-- R205: `OUT` appends the raw register to the stream. -/
def Obligations.OutAppendsRegister : Prop :=
  ∀ (rs1 : Reg) (s : State),
    Encodes 0x05#8 none (some rs1) none 0#32 (.out rs1) ∧
    exec (.out rs1) s = .next { s with out := s.out ++ [s.reg rs1], cc := s.cc + 1#64 }

/-- R204, the registers that never fault and have no side effect: `STATUS`, `CC`, the lengths, `CFG`. -/
def Obligations.RdsrReadsPlainRegisters : Prop :=
  ∀ (rd : Reg) (s : State),
    (∀ sr : BitVec 32, sr.toNat ≤ 8 → Encodes 0x04#8 (some rd) none none sr (.rdsr rd sr)) ∧
    (∃ t, exec (.rdsr rd 0#32) s = .next t ∧ OnlyReg rd s t ∧
      (t.reg rd).toNat = s.chv.toNat * 4 + s.nop.toNat * 2 + s.kv.toNat) ∧
    (∃ t, exec (.rdsr rd 1#32) s = .next t ∧ OnlyReg rd s t ∧ t.reg rd = s.cc) ∧
    (∃ t, exec (.rdsr rd 2#32) s = .next t ∧ OnlyReg rd s t ∧
      (s.mem.wf s.cfg.cap.toNat = true → (t.reg rd).toNat = s.mem.seq.length)) ∧
    (∃ t, exec (.rdsr rd 3#32) s = .next t ∧ OnlyReg rd s t ∧
      (s.mem.wf s.cfg.cap.toNat = true → (t.reg rd).toNat = s.mem.byte.length)) ∧
    (∃ t, exec (.rdsr rd 4#32) s = .next t ∧ OnlyReg rd s t ∧
      (s.mem.wf s.cfg.cap.toNat = true → (t.reg rd).toNat = s.mem.text.length)) ∧
    (∃ t, exec (.rdsr rd 8#32) s = .next t ∧ OnlyReg rd s t ∧
      (t.reg rd).toNat = s.cfg.cap.toNat * 2 ^ 32 + s.cfg.nlanes.toNat)

/-- R204, the keyed registers: read when a key is loaded, `E_NOKEY` otherwise. -/
def Obligations.RdsrOfKeyedRegistersNeedsKey : Prop :=
  ∀ (rd : Reg) (s : State),
    (∀ k, s.keyed = some k →
      (∃ t, exec (.rdsr rd 5#32) s = .next t ∧ OnlyReg rd s t ∧
        (t.reg rd).toNat = elemNat k.phik.a.toNat k.phik.b.toNat) ∧
      ∃ t, exec (.rdsr rd 6#32) s = .next t ∧ OnlyReg rd s t ∧
        (t.reg rd).toNat = elemNat k.phink.a.toNat k.phink.b.toNat) ∧
    (s.keyed = none → ∀ sr : BitVec 32, sr = 5#32 ∨ sr = 6#32 →
      ∃ t, exec (.rdsr rd sr) s = .next t ∧ Faulted .noKey (encode (.rdsr rd sr)) s t)

/-- R204, R28: reading `CHUNK` computes it on first use and then reads the same value for ever. -/
def Obligations.RdsrOfChunkComputesOnce : Prop :=
  ∀ (rd : Reg) (s : State), chunkOk s.cfg s.chunk = true →
    ∃ t, exec (.rdsr rd 7#32) s = .next t ∧ Completed s t ∧ SameRegsExcept rd s t ∧ t.nop = s.nop ∧
      SameKeyed s t ∧ SameMem s t ∧ SameOut s t ∧ t.chv = true ∧ chunkOk s.cfg t.chunk = true ∧
      (t.reg rd).toNat = max 4096 (262144 / s.cfg.nlanes.toNat)

/-! ## Memory commands -/

/-- R206, R209: a fresh zero-filled memory of the length asked for, or `E_LENGTH` beyond `CAP`. -/
def Obligations.NewMemoriesAreZeroFilled : Prop :=
  ∀ (rs1 : Reg) (s : State),
    Encodes 0x30#8 none (some rs1) none 0#32 (.newseq rs1) ∧
    Encodes 0x33#8 none (some rs1) none 0#32 (.newbuf rs1) ∧
    ((s.reg rs1).toNat ≤ s.cfg.cap.toNat →
      (∃ t, exec (.newseq rs1) s = .next t ∧ OnlySeq s t ∧ SameChunk s t ∧
        t.mem.seq.length = (s.reg rs1).toNat ∧
        ∀ i, i < (s.reg rs1).toNat → ∃ e, t.mem.readSeq i = some e ∧ IsElem e 0 0) ∧
      ∃ t, exec (.newbuf rs1) s = .next t ∧ OnlyByte s t ∧
        t.mem.byte.length = (s.reg rs1).toNat ∧ ∀ i, i < (s.reg rs1).toNat → t.mem.readByte i = some 0#8) ∧
    (s.cfg.cap.toNat < (s.reg rs1).toNat →
      (∃ t, exec (.newseq rs1) s = .next t ∧ Faulted .length (encode (.newseq rs1)) s t) ∧
      ∃ t, exec (.newbuf rs1) s = .next t ∧ Faulted .length (encode (.newbuf rs1)) s t)

/-- R207, R210, R212: a load reads the cell the whole register names, or faults with `E_INDEX`. -/
def Obligations.LoadsReadOneCell : Prop :=
  ∀ (rd rs1 : Reg) (s : State),
    Encodes 0x31#8 (some rd) (some rs1) none 0#32 (.lde rd rs1) ∧
    Encodes 0x34#8 (some rd) (some rs1) none 0#32 (.ldb rd rs1) ∧
    Encodes 0x36#8 (some rd) (some rs1) none 0#32 (.ldt rd rs1) ∧
    (∀ e, s.mem.readSeq (s.reg rs1).toNat = some e →
      ∃ t, exec (.lde rd rs1) s = .next t ∧ OnlyReg rd s t ∧ (t.reg rd).toNat = elemNat e.a.toNat e.b.toNat) ∧
    (∀ b, s.mem.readByte (s.reg rs1).toNat = some b →
      ∃ t, exec (.ldb rd rs1) s = .next t ∧ OnlyReg rd s t ∧ (t.reg rd).toNat = b.toNat) ∧
    (∀ b, s.mem.readText (s.reg rs1).toNat = some b →
      ∃ t, exec (.ldt rd rs1) s = .next t ∧ OnlyReg rd s t ∧ (t.reg rd).toNat = b.toNat) ∧
    (s.mem.seq.length ≤ (s.reg rs1).toNat →
      ∃ t, exec (.lde rd rs1) s = .next t ∧ Faulted .index (encode (.lde rd rs1)) s t) ∧
    (s.mem.byte.length ≤ (s.reg rs1).toNat →
      ∃ t, exec (.ldb rd rs1) s = .next t ∧ Faulted .index (encode (.ldb rd rs1)) s t) ∧
    (s.mem.text.length ≤ (s.reg rs1).toNat →
      ∃ t, exec (.ldt rd rs1) s = .next t ∧ Faulted .index (encode (.ldt rd rs1)) s t)

/-- R208: `STE` stores the reduced element in the cell the whole register names and changes no other cell. -/
def Obligations.SteStoresOneElement : Prop :=
  ∀ (rs1 rs2 : Reg) (s : State),
    Encodes 0x32#8 none (some rs1) (some rs2) 0#32 (.ste rs1 rs2) ∧
    (s.intView rs1 < s.mem.seq.length →
      ∃ t, exec (.ste rs1 rs2) s = .next t ∧ OnlySeq s t ∧ SameChunk s t ∧
        t.mem.seq.length = s.mem.seq.length ∧
        (∃ e, t.mem.readSeq (s.intView rs1) = some e ∧ IsElem e (lowRes (s.reg rs2)) (highRes (s.reg rs2))) ∧
        ∀ a, a ≠ s.intView rs1 → t.mem.readSeq a = s.mem.readSeq a) ∧
    (s.mem.seq.length ≤ s.intView rs1 →
      ∃ t, exec (.ste rs1 rs2) s = .next t ∧ Faulted .index (encode (.ste rs1 rs2)) s t)

/-- R211: `STB` stores the low byte in the cell the whole register names and changes no other cell. -/
def Obligations.StbStoresOneByte : Prop :=
  ∀ (rs1 rs2 : Reg) (s : State),
    Encodes 0x35#8 none (some rs1) (some rs2) 0#32 (.stb rs1 rs2) ∧
    (s.intView rs1 < s.mem.byte.length →
      ∃ t, exec (.stb rs1 rs2) s = .next t ∧ OnlyByte s t ∧
        t.mem.byte.length = s.mem.byte.length ∧
        (∃ b, t.mem.readByte (s.intView rs1) = some b ∧ b.toNat = (s.reg rs2).toNat % 256) ∧
        ∀ a, a ≠ s.intView rs1 → t.mem.readByte a = s.mem.readByte a) ∧
    (s.mem.byte.length ≤ s.intView rs1 →
      ∃ t, exec (.stb rs1 rs2) s = .next t ∧ Faulted .index (encode (.stb rs1 rs2)) s t)

/-! ## Transform -/

/-- R150: the chunk size for every lane count. -/
def Obligations.ChunkSizeIsClamped : Prop :=
  ∀ nlanes : Nat, 1 ≤ nlanes →
    chunkBytes nlanes = max 4096 (262144 / nlanes) ∧ chunkElems nlanes = chunkBytes nlanes / 8 ∧
      512 ≤ chunkElems nlanes ∧ (64 ≤ nlanes → chunkBytes nlanes = 4096 ∧ chunkElems nlanes = 512)

/-- R152: which indices each chunk covers; every index below the length lies in exactly one chunk, the chunks stand in
order, and none is empty. -/
def Obligations.ChunksPartitionIndices : Prop :=
  ∀ elems len : Nat, 1 ≤ elems →
    (chunks elems len).flatten = List.range len ∧
      (∀ c ∈ chunks elems len, 1 ≤ c.length ∧ c.length ≤ elems) ∧
      (chunks elems len).length = (len + elems - 1) / elems ∧
      ∀ (c : Nat) (l : List Nat), (chunks elems len)[c]? = some l →
        ∀ i : Nat, i ∈ l ↔ c * elems ≤ i ∧ i < min len ((c + 1) * elems)

/-- R156, R57: whatever the chunk size and whatever the interleaving of the lanes, a pass leaves the cells the command
leaves. -/
def Obligations.LaneSchedulesAreUnobservable : Prop :=
  ∀ (f : Nat → Elem → Elem) (elems : Nat) (cells : List Elem) (schedule : List Nat), 1 ≤ elems →
    schedule.Perm (chunks elems cells.length).flatten →
    runLanes f schedule cells = cells.mapIdx f ∧
      (∀ s : State, s.mem.seq = cells →
        (∃ t, exec .haar s = .next t ∧ t.mem.seq = runLanes haarCell schedule cells) ∧
        (∀ rs1 : Reg, ∃ t, exec (.phi rs1) s = .next t ∧
          t.mem.seq = runLanes (fun _ e => mulx e (s.elemView rs1)) schedule cells) ∧
        ∀ (k : KeyedPair) (second : List Nat), s.keyed = some k → second.Perm schedule →
          ∃ t, exec .tofreq s = .next t ∧
            t.mem.seq = runLanes (fun _ e => mulx e k.phik) second (runLanes haarCell schedule cells))

/-- R160: `HAAR` negates the odd cells by global index and leaves the even ones. -/
def Obligations.HaarNegatesOddCells : Prop :=
  ∀ s : State,
    Encodes 0x40#8 none none none 0#32 .haar ∧
    ∃ t, exec .haar s = .next t ∧ OnlySeq s t ∧ ChunkUsed s t ∧ t.mem.seq.length = s.mem.seq.length ∧
      ∀ i e, s.mem.readSeq i = some e →
        ∃ e', t.mem.readSeq i = some e' ∧ IsElem e' (signed i e.a.toNat) (signed i e.b.toNat)

/-- R154: two `HAAR` commands in a row restore the sequence exactly. -/
def Obligations.HaarTwiceRestoresSequence : Prop :=
  ∀ s : State, (∀ e ∈ s.mem.seq, isCanonical e = true) →
    ∃ t u, exec .haar s = .next t ∧ exec .haar t = .next u ∧ u.mem = s.mem

/-- R161: `PHI` multiplies every cell by the element view of the register and reports an empty sequence in `NOP`. -/
def Obligations.PhiMultipliesEveryCell : Prop :=
  ∀ (rs1 : Reg) (s : State),
    Encodes 0x41#8 none (some rs1) none 0#32 (.phi rs1) ∧
    ∃ t, exec (.phi rs1) s = .next t ∧ Completed s t ∧ SameRegs s t ∧ SameKeyed s t ∧ SameByte s t ∧
      SameText s t ∧ SameOut s t ∧ ChunkUsed s t ∧
      (t.nop = true ↔ s.mem.seq.length = 0) ∧ t.mem.seq.length = s.mem.seq.length ∧
      ∀ i e, s.mem.readSeq i = some e →
        ∃ e', t.mem.readSeq i = some e' ∧
          IsProduct e' e.a.toNat e.b.toNat (lowRes (s.reg rs1)) (highRes (s.reg rs1))

/-- R155: the phi pass by the keyed element and then by its inverse reproduces the sequence. -/
def Obligations.PhiRoundTripRestoresSequence : Prop :=
  ∀ (key : BitVec 32) (cells : List Elem), (∀ e ∈ cells, isCanonical e = true) →
    (phiPass (phiPass cells (keyedOf key).phik).1 (keyedOf key).phink).1 = cells

/-! ## Frame -/

/-- R171: `KEYLD` loads the pair of the low 32 bits and changes nothing else; the other bits are ignored. -/
def Obligations.KeyldLoadsKeyedPair : Prop :=
  ∀ (rs1 : Reg) (s : State),
    Encodes 0x50#8 none (some rs1) none 0#32 (.keyld rs1) ∧
    (∃ k, exec (.keyld rs1) s = .next { s with keyed := some k, cc := s.cc + 1#64 } ∧
      k.phik = elemPow phiElem ((s.reg rs1).toNat % 2 ^ 32) ∧
      k.phink = elemPow phiElem ((N - (s.reg rs1).toNat % 2 ^ 32) % N)) ∧
    (iterations (.keyld rs1) s).sum =
      if (s.reg rs1).toNat % 2 ^ 32 = 0 then 0 else bitLength ((s.reg rs1).toNat % 2 ^ 32) + 62

/-- R173: with a key, `TOFREQ` multiplies each cell, its sign flipped at odd indices, by the keyed element; without one
it faults before it touches anything. -/
def Obligations.TofreqTransformsInPlace : Prop :=
  ∀ s : State,
    Encodes 0x51#8 none none none 0#32 .tofreq ∧
    (∀ k, s.keyed = some k →
      ∃ t, exec .tofreq s = .next t ∧ OnlySeq s t ∧ ChunkUsed s t ∧ t.mem.seq.length = s.mem.seq.length ∧
        ∀ i e, s.mem.readSeq i = some e →
          ∃ e', t.mem.readSeq i = some e' ∧
            IsProduct e' (signed i e.a.toNat) (signed i e.b.toNat) k.phik.a.toNat k.phik.b.toNat) ∧
    (s.keyed = none → ∃ t, exec .tofreq s = .next t ∧ Faulted .noKey (encode .tofreq) s t)

/-- R175, R174: with a key, `PROC` makes a fresh sequence of the closed form `(s·c, s·d)` and leaves the input. -/
def Obligations.ProcEncodesInputBytes : Prop :=
  ∀ s : State,
    Encodes 0x52#8 none none none 0#32 .proc ∧
    (∀ k, s.keyed = some k →
      ∃ t, exec .proc s = .next t ∧ OnlySeq s t ∧ ChunkUsed s t ∧ t.mem.seq.length = s.mem.byte.length ∧
        ∀ i b, s.mem.readByte i = some b →
          ∃ e, t.mem.readSeq i = some e ∧
            IsElem e (signed i b.toNat * k.phik.a.toNat % P) (signed i b.toNat * k.phik.b.toNat % P)) ∧
    (s.keyed = none → ∃ t, exec .proc s = .next t ∧ Faulted .noKey (encode .proc) s t)

/-- R177, R176: the cells `EDIT` writes, for every level; at level 0 the outcome rests on `L0_SELF_PAIR`, which the
spec fixes at true (log entry 7). -/
def Obligations.EditWritesPair : Prop :=
  ∀ (rs1 rs2 : Reg) (level : BitVec 32) (s : State), level.toNat ≤ 63 →
    Encodes 0x53#8 none (some rs1) (some rs2) level (.edit rs1 rs2 level) ∧
    (∀ k, s.keyed = some k → l0SelfPair = true →
      ∃ t p, exec (.edit rs1 rs2 level) s = .next t ∧ OnlySeq s t ∧ SameChunk s t ∧
        IsProduct p (lowRes (s.reg rs2)) (highRes (s.reg rs2)) k.phik.a.toNat k.phik.b.toNat ∧
        t.mem.seq.length = s.mem.seq.length ∧
        ∀ a, t.mem.readSeq a =
          if (s.reg rs1).toNat * 2 ^ level.toNat < s.mem.seq.length ∧ a < s.mem.seq.length then
            if a = (s.reg rs1).toNat * 2 ^ level.toNat + 2 ^ level.toNat / 2 then some (negx p)
            else if a = (s.reg rs1).toNat * 2 ^ level.toNat then some p
            else s.mem.readSeq a
          else s.mem.readSeq a) ∧
    (s.keyed = none →
      ∃ t, exec (.edit rs1 rs2 level) s = .next t ∧ Faulted .noKey (encode (.edit rs1 rs2 level)) s t)

/-- R176: at levels 1 to 63, with both indices in bounds, the two cells `EDIT` writes sum to the zero element. -/
def Obligations.EditedPairSumsToZero : Prop :=
  ∀ (rs1 rs2 : Reg) (level : BitVec 32) (s : State) (k : KeyedPair),
    1 ≤ level.toNat → level.toNat ≤ 63 → s.keyed = some k →
    (s.reg rs1).toNat * 2 ^ level.toNat + 2 ^ level.toNat / 2 < s.mem.seq.length →
    ∃ t u v, exec (.edit rs1 rs2 level) s = .next t ∧
      t.mem.readSeq ((s.reg rs1).toNat * 2 ^ level.toNat) = some u ∧
      t.mem.readSeq ((s.reg rs1).toNat * 2 ^ level.toNat + 2 ^ level.toNat / 2) = some v ∧
      addx u v = zeroElem

/-- R178: the relation checked, for either reading of level 0: every pair of every block of every level with
`2^level ≤ len`, the pairs with no partner in the sequence left out. -/
def Obligations.VerifyChecksEveryPair : Prop :=
  ∀ (selfPair : Bool) (cells : List Elem),
    verifyRelationships selfPair cells = true ↔
      ∀ (level start : Nat) (u v : Elem), 2 ^ level ≤ cells.length → 2 ^ level ∣ start →
        (level = 0 → selfPair = true) →
        cells[start]? = some u → cells[start + 2 ^ level / 2]? = some v → addx u v = zeroElem

/-- R179, R185: under `L0_SELF_PAIR` (log entry 7) the result of `VERIFY` is 1 exactly when every cell is the zero element. -/
def Obligations.VerifyAcceptsZeroSequencesOnly : Prop :=
  ∀ (rd : Reg) (s : State), l0SelfPair = true →
    Encodes 0x54#8 (some rd) none none 0#32 (.verify rd) ∧
    ∃ t, exec (.verify rd) s = .next t ∧ OnlyReg rd s t ∧
      ((∀ e ∈ s.mem.seq, IsElem e 0 0) → t.reg rd = 1#64) ∧
      ((∃ e ∈ s.mem.seq, ¬ IsElem e 0 0) → t.reg rd = 0#64)

/-- R181, R180: with a key, `RECON` writes the decoded values in index order and leaves `SEQ`. -/
def Obligations.ReconDecodesSequence : Prop :=
  ∀ s : State,
    Encodes 0x55#8 none none none 0#32 .recon ∧
    (∀ k, s.keyed = some k →
      ∃ t, exec .recon s = .next t ∧ Completed s t ∧ SameRegs s t ∧ t.nop = s.nop ∧ SameKeyed s t ∧
        SameSeq s t ∧ SameByte s t ∧ SameOut s t ∧ ChunkUsed s t ∧
        t.mem.text.map BitVec.toNat = (List.range s.mem.seq.length).filterMap fun i =>
          (s.mem.readSeq i).bind fun e =>
            decodedValue i e.a.toNat e.b.toNat k.phink.a.toNat k.phink.b.toNat) ∧
    (s.keyed = none → ∃ t, exec .recon s = .next t ∧ Faulted .noKey (encode .recon) s t)

/-- R180: `PROC` then `RECON` gives the input back with the bytes of 128 and above removed. -/
def Obligations.ProcThenReconReturnsAsciiInput : Prop :=
  ∀ s : State, s.ok = true → s.kv = true →
    ∃ t u, exec .proc s = .next t ∧ exec .recon t = .next u ∧
      u.mem.text = s.mem.byte.filter (fun b => decide (b.toNat < 128)) ∧ u.mem.byte = s.mem.byte

/-- R174: two different inputs of the same length give sequences that differ in at least one element. -/
def Obligations.EncodingsOfDifferentInputsDiffer : Prop :=
  ∀ (key : BitVec 32) (b c : List Byte), b.length = c.length → b ≠ c →
    ∃ i : Nat, i < b.length ∧ (processData b (keyedOf key).phik)[i]? ≠ (processData c (keyedOf key).phik)[i]?

/-! ## Faults, the sequencer, runs -/

/-- R231, R234, R24: each decoded command either meets exactly the cause the table of causes names and takes that fault,
with no other effect, or completes and advances `CC` by one. -/
def Obligations.CommandsFaultExactlyByTable : Prop :=
  ∀ (i : Instr) (s : State), i.wf = true →
    ∃ t, exec i s = .next t ∧
      match faultDue i s with
      | some c => Faulted c (encode i) s t
      | none => Completed s t

/-- R242: from every state the step answers a next state; there is no stop and no refusal. -/
def Obligations.EveryStepAnswersNext : Prop :=
  ∀ s : State, ∃ t, step s = .next t

/-- R242: the step runs the command the word at the head of the channel decodes to, on the state with the word taken. -/
def Obligations.StepRunsDecodedCommand : Prop :=
  ∀ (s : State) (w : Word) (rest : List Word) (i : Instr),
    s.chan = w :: rest → s.fault = false → decode w = .command i → step s = exec i { s with chan := rest }

/-- R75, R234: an illegal word faults with `E_ILLEGAL`, the word recorded, and no other effect. -/
def Obligations.IllegalWordFaults : Prop :=
  ∀ (s : State) (w : Word) (rest : List Word) (why : IllegalReason),
    s.chan = w :: rest → s.fault = false → decode w = .illegal why →
    ∃ t, step s = .next t ∧ Faulted .illegal w { s with chan := rest } t

/-- R234: whatever the word, a step that faults records that very word and changes nothing but the fault record; `CC`
stays. -/
def Obligations.FaultsArePrecise : Prop :=
  ∀ (s t : State) (w : Word) (rest : List Word),
    s.chan = w :: rest → s.fault = false → step s = .next t → t.fault = true →
    ∃ c : FaultCause, Faulted c w { s with chan := rest } t

/-- R235: once faulted, every later word is discarded, and nothing else ever changes. The words the host has sent stand
in `chan` (log entry 2). -/
def Obligations.FaultedBlockDiscardsWords : Prop :=
  ∀ (n : Nat) (s : State), s.fault = true →
    Host.Core.run core n s = .next { s with chan := s.chan.drop n }

/-- R268: the run of the words in the channel ends when the last is taken, and has then gone right, with `CC` their
number, or wrong, with `CC` the index of the faulting word. The list of the words is `chan` (log entry 2). That every run
ends rests on `OUT` never waiting for the host (R264; log entry 9). -/
def Obligations.RunsEndRightOrWrong : Prop :=
  ∀ s : State, s.fault = false →
    ∃ t, Host.Core.run core s.chan.length s = .next t ∧ (WentRight s t ∨ WentWrong s t)

/-- R25, R26, R27, R182: which commands write the keyed pair, `NOP`, and the three lengths. -/
def Obligations.FlagsAndLengthsHaveFewWriters : Prop :=
  ∀ (i : Instr) (s t : State), exec i s = .next t →
    ((∀ rs1, i ≠ .keyld rs1) → t.keyed = s.keyed) ∧
    ((∀ rs1, i ≠ .phi rs1) → t.nop = s.nop) ∧
    ((∀ rs1, i ≠ .newseq rs1) → i ≠ .proc → t.mem.seq.length = s.mem.seq.length) ∧
    ((∀ rs1, i ≠ .newbuf rs1) → t.mem.byte.length = s.mem.byte.length) ∧
    (i ≠ .recon → t.mem.text = s.mem.text) ∧
    (s.kv = true → t.kv = true)

/-- R28, R151: once computed, the chunk size never changes; and it is computed by the six commands that use it only. -/
def Obligations.ChunkSizeIsComputedOnce : Prop :=
  ∀ (i : Instr) (s t : State), exec i s = .next t →
    (∀ c, s.chunk = some c → t.chunk = some c) ∧
    (i ≠ .haar → (∀ rs1, i ≠ .phi rs1) → i ≠ .tofreq → i ≠ .proc → i ≠ .recon → (∀ rd, i ≠ .rdsr rd 7#32) →
      t.chunk = s.chunk)

/-- R33, R31: along any run the output stream only grows at its end and the hardwired parameters stay. -/
def Obligations.OutputOnlyGrows : Prop :=
  ∀ (n : Nat) (s t : State), Host.Core.run core n s = .next t → s.out <+: t.out ∧ t.cfg = s.cfg

/-- R26, R27, R28, R29, R32: the invariant is kept by every step, from every state that has it. -/
def Obligations.StepKeepsStateOk : Prop :=
  ∀ s t : State, s.ok = true → step s = .next t → t.ok = true

/-- The state after reset has the invariant. -/
def Obligations.ResetStateIsOk : Prop := State.reset.ok = true

/-- R36, R260: the value of every piece of state after reset, and reset at any time, the parameters kept. -/
def Obligations.ResetGivesInitialValues : Prop :=
  (∀ r : Reg, State.reset.reg r = 0#64) ∧ State.reset.cc = 0#64 ∧ State.reset.kv = false ∧
    State.reset.nop = false ∧ State.reset.chv = false ∧ State.reset.keyed = none ∧ State.reset.chunk = none ∧
    State.reset.len = 0#32 ∧ State.reset.blen = 0#32 ∧ State.reset.tlen = 0#32 ∧
    (∀ i, State.reset.mem.readSeq i = none ∧ State.reset.mem.readByte i = none ∧
      State.reset.mem.readText i = none) ∧
    State.reset.fault = false ∧ State.reset.cause = 0#4 ∧ State.reset.fcmd = 0#64 ∧ State.reset.out = [] ∧
    State.reset.chan = [] ∧
    ∀ s : State, s.assertReset = { State.reset with cfg := s.cfg }

/-! ## Encoding -/

/-- R72, R73: decoding the word of a well-formed command gives the command back, with every operand. -/
def Obligations.DecodeInvertsEncode : Prop :=
  ∀ i : Instr, i.wf = true → decode (encode i) = .command i

/-- R72: a legal word is the word of the command it decodes to, so no two words decode to the same command. -/
def Obligations.EncodeInvertsDecode : Prop :=
  ∀ (w : Word) (i : Instr), decode w = .command i → i.wf = true ∧ encode i = w

/-- R74, R79: a word decodes to a command exactly when it meets the match and mask of a row, and then to that row's
command. -/
def Obligations.DecodeAgreesWithMatchAndMask : Prop :=
  (∀ w : Word, (∃ i, decode w = .command i) ↔ ∃ m ∈ opcodeMap, m.hits w = true) ∧
    ∀ (w : Word) (i : Instr) (m : MapRow), decode w = .command i → m ∈ opcodeMap → m.hits w = true →
      m.mnemonic = mnemonicOf i

/-- Words written out from the encodings of R71 and R74, one of each family, and what they are. -/
def Obligations.WrittenWordsDecode : Prop :=
  decode 0x01100000DEADBEEF#64 = .command (.lil 1 0xDEADBEEF#32) ∧
    decode 0x1131200000000000#64 = .command (.addp 3 1 2) ∧
    decode 0x2531200000000000#64 = .command (.expx 3 1 2) ∧
    decode 0x320FF00000000000#64 = .command (.ste 15 15) ∧
    decode 0x4102000000000000#64 = .command (.phi 2) ∧
    decode 0x530120000000003F#64 = .command (.edit 1 2 63#32)
end

