-- ==== Sys2Proof/Laws/Encoding.lean ====
section
/-! SUPPORT. Format C: the fields of a word built from fields, and the word of the fields of a word. -/

namespace Sys2Proof.Laws

@[simp] theorem regOf_regField (r : Reg) : regOf (regField r) = r := by
  ext
  simp [regOf, regField]

@[simp] theorem regField_regOf (f : BitVec 4) : regField (regOf f) = f := by
  apply BitVec.eq_of_toNat_eq
  simp [regOf, regField]

/-- The value of the word of some fields (30_encoding.md R71). -/
theorem wordOf_toNat (f : Fields) : (wordOf f).toNat =
    f.opcode.toNat * 2 ^ 56 + f.rd.toNat * 2 ^ 52 + f.rs1.toNat * 2 ^ 48 + f.rs2.toNat * 2 ^ 44
      + f.zero.toNat * 2 ^ 32 + f.imm.toNat := by
  have h (a n : Nat) {b : Nat} (hb : b < 2 ^ n) : a <<< n ||| b = a * 2 ^ n + b := by
    rw [Nat.shiftLeft_eq, Nat.mul_comm, Nat.two_pow_add_eq_or_of_lt hb]
  simp only [wordOf, BitVec.toNat_append, h _ _ (BitVec.isLt _)]
  ring

/-- Reading the fields of a word built from fields gives them back (30_encoding.md R71). -/
@[simp] theorem fieldsOf_wordOf (f : Fields) : fieldsOf (wordOf f) = f := by
  have h1 := f.opcode.isLt
  have h2 := f.rd.isLt
  have h3 := f.rs1.isLt
  have h4 := f.rs2.isLt
  have h5 := f.zero.isLt
  have h6 := f.imm.isLt
  obtain ⟨o, d, a, b, z, m⟩ := f
  simp only [fieldsOf, Fields.mk.injEq]
  refine ⟨?_, ?_, ?_, ?_, ?_, ?_⟩ <;>
  · apply BitVec.eq_of_toNat_eq
    simp only [BitVec.extractLsb'_toNat, wordOf_toNat, Nat.shiftRight_eq_div_pow] at *
    omega

/-- Building the word of the fields of a word gives it back (30_encoding.md R71). -/
@[simp] theorem wordOf_fieldsOf (w : Word) : wordOf (fieldsOf w) = w := by
  apply BitVec.eq_of_toNat_eq
  have h := w.isLt
  simp only [wordOf_toNat, fieldsOf, BitVec.extractLsb'_toNat, Nat.shiftRight_eq_div_pow]
  omega

/-- The fields of a command's word are the command's fields. -/
@[simp] theorem fieldsOf_encode (i : Instr) : fieldsOf (encode i) = i.fields := fieldsOf_wordOf _

/-! ### Decoding -/

/-- A row found for an opcode is a row of the table with that opcode. -/
theorem rowOf_eq_some {o : BitVec 8} {r : OpRow} (h : rowOf o = some r) : r ∈ opTable ∧ r.opcode = o := by
  unfold rowOf at h
  exact ⟨List.mem_of_find?_eq_some h, by simpa using List.find?_some h⟩

/-- Everything a verdict that is a command says of the fields (30_encoding.md R72, R73, R75). -/
theorem verdict_eq_command {r : OpRow} {f : Fields} {i : Instr} : r.verdict f = .command i ↔
    f.zero = 0#12 ∧ r.registersOk f = true ∧ r.immProblem f.imm = none ∧
      i = r.build (regOf f.rd) (regOf f.rs1) (regOf f.rs2) f.imm := by
  unfold OpRow.verdict
  by_cases hz : f.zero = 0#12
  · cases hr : r.registersOk f
    · simp [hz]
    · cases hi : r.immProblem f.imm <;> simp [hz, eq_comm]
  · simp [hz]

/-- Everything a word that decodes to a command says: its row, and the row's verdict on its fields. -/
theorem decode_eq_command {w : Word} {i : Instr} : decode w = .command i ↔
    ∃ r, rowOf (fieldsOf w).opcode = some r ∧ r.verdict (fieldsOf w) = .command i := by
  unfold decode
  cases rowOf (fieldsOf w).opcode <;> simp

end Sys2Proof.Laws
end

