-- ==== Sys2Proof/Laws/Field.lean ====
section
/-! SUPPORT. What the scalar functions compute, as numbers modulo `P`; when elements are canonical; reading packed
elements back. -/

namespace Sys2Proof.Machine.Laws

open Config

/-! ### Scalars as numbers -/

theorem scalarOf_toNat {n : Nat} (h : n < 2 ^ 31) : (scalarOf n).toNat = n := by
  rw [scalarOf, BitVec.toNat_ofNat, Nat.mod_eq_of_lt h]

theorem scalar_ext {a b : Scalar} (h : a.toNat = b.toNat) : a = b := BitVec.eq_of_toNat_eq h

/-- A round splits the number at bit 31 (40_field_scalar.md R101). -/
theorem reduceRound_eq (x : Nat) : reduceRound x = x / 2147483648 + x % 2147483648 := by
  have h : x &&& 0x7FFFFFFF = x % 2 ^ 31 := Nat.and_two_pow_sub_one_eq_mod x 31
  simp only [reduceRound, h, Nat.shiftRight_eq_div_pow]
  norm_num

/-- The one conditional subtraction reduces what is below `2P`. -/
theorem subtractP_eq {s : Nat} (h : s < 2 * P) : subtractP s = s % P := by
  unfold subtractP
  split <;> simp only [P] at * <;> omega

/-- The reducer computes the residue of every 64-bit word (40_field_scalar.md R101). -/
@[simp] theorem reduce_toNat (x : Word) : (reduce x).toNat = x.toNat % P := by
  have hx := x.isLt
  unfold reduce
  rw [scalarOf_toNat]
  · simp only [subtractP, reduceRound_eq, P]
    split <;> omega
  · simp only [subtractP, reduceRound_eq, P]
    split <;> omega

/-- `addp` on scalars (40_field_scalar.md R103). -/
theorem addp_toNat {a b : Scalar} (ha : a.toNat < P) (hb : b.toNat < P) :
    (addp a b).toNat = (a.toNat + b.toNat) % P := by
  have h : subtractP (a.toNat + b.toNat) = (a.toNat + b.toNat) % P := subtractP_eq (by omega)
  rw [addp, h, scalarOf_toNat]
  exact Nat.lt_trans (Nat.mod_lt _ (by decide)) (by decide)

/-- `subp` on scalars (40_field_scalar.md R104). -/
theorem subp_toNat {a b : Scalar} (ha : a.toNat < P) (hb : b.toNat < P) :
    (subp a b).toNat = (a.toNat + P - b.toNat) % P := by
  unfold subp
  rw [scalarOf_toNat]
  · split <;> simp only [P] at * <;> omega
  · split <;> simp only [P] at * <;> omega

/-- `mulp` on every pair of u31 (40_field_scalar.md R105). -/
@[simp] theorem mulp_toNat (a b : Scalar) : (mulp a b).toNat = a.toNat * b.toNat % P := by
  have h : a.toNat * b.toNat < 2 ^ 64 :=
    Nat.lt_of_lt_of_le (Nat.mul_lt_mul'' a.isLt b.isLt) (by decide)
  rw [mulp, reduce_toNat, BitVec.toNat_ofNat, Nat.mod_eq_of_lt h]

/-- `negp` on scalars (40_field_scalar.md R106). -/
theorem negp_toNat {a : Scalar} (ha : a.toNat < P) : (negp a).toNat = (P - a.toNat) % P := by
  unfold negp
  rw [scalarOf_toNat]
  · split <;> simp only [P] at * <;> omega
  · split <;> simp only [P] at * <;> omega

/-! ### Results are scalars -/

theorem reduce_lt (x : Word) : (reduce x).toNat < P := by
  rw [reduce_toNat]
  exact Nat.mod_lt _ (by decide)

theorem mulp_lt (a b : Scalar) : (mulp a b).toNat < P := reduce_lt _

theorem addp_lt {a b : Scalar} (ha : a.toNat < P) (hb : b.toNat < P) : (addp a b).toNat < P := by
  rw [addp_toNat ha hb]
  exact Nat.mod_lt _ (by decide)

theorem subp_lt {a b : Scalar} (ha : a.toNat < P) (hb : b.toNat < P) : (subp a b).toNat < P := by
  rw [subp_toNat ha hb]
  exact Nat.mod_lt _ (by decide)

theorem negp_lt {a : Scalar} (ha : a.toNat < P) : (negp a).toNat < P := by
  rw [negp_toNat ha]
  exact Nat.mod_lt _ (by decide)

/-! ### Elements -/

theorem elem_ext {u v : Elem} (ha : u.a.toNat = v.a.toNat) (hb : u.b.toNat = v.b.toNat) : u = v := by
  obtain ⟨a, b⟩ := u
  obtain ⟨c, d⟩ := v
  simp only at ha hb
  rw [BitVec.eq_of_toNat_eq ha, BitVec.eq_of_toNat_eq hb]

theorem isCanonical_iff {e : Elem} : isCanonical e = true ↔ e.a.toNat < P ∧ e.b.toNat < P := by
  simp [isCanonical]

theorem isCanonical_zero : isCanonical zeroElem = true := by decide

theorem isCanonical_one : isCanonical oneElem = true := by decide

theorem isCanonical_phi : isCanonical phiElem = true := by decide

theorem isCanonical_s2f (v : Word) : isCanonical (s2f v) = true :=
  isCanonical_iff.2 ⟨reduce_lt v, show 0 < P by decide⟩

theorem isCanonical_elemOf (v : Word) : isCanonical (elemOf v) = true :=
  isCanonical_iff.2 ⟨reduce_lt _, reduce_lt _⟩

theorem isCanonical_addx {u v : Elem} (hu : isCanonical u = true) (hv : isCanonical v = true) :
    isCanonical (addx u v) = true := by
  rw [isCanonical_iff] at *
  exact ⟨addp_lt hu.1 hv.1, addp_lt hu.2 hv.2⟩

theorem isCanonical_subx {u v : Elem} (hu : isCanonical u = true) (hv : isCanonical v = true) :
    isCanonical (subx u v) = true := by
  rw [isCanonical_iff] at *
  exact ⟨subp_lt hu.1 hv.1, subp_lt hu.2 hv.2⟩

theorem isCanonical_negx {u : Elem} (hu : isCanonical u = true) : isCanonical (negx u) = true := by
  rw [isCanonical_iff] at *
  exact ⟨negp_lt hu.1, negp_lt hu.2⟩

/-- A product is canonical whatever the factors: every scalar product is reduced (41_field_ext.md R128). -/
theorem isCanonical_mulx (u v : Elem) : isCanonical (mulx u v) = true :=
  isCanonical_iff.2
    ⟨addp_lt (mulp_lt _ _) (mulp_lt _ _), addp_lt (addp_lt (mulp_lt _ _) (mulp_lt _ _)) (mulp_lt _ _)⟩

/-- The product as numbers, on every pair of elements, canonical or not (41_field_ext.md R128). -/
theorem mulx_toNat (u v : Elem) :
    (mulx u v).a.toNat = (u.a.toNat * v.a.toNat + u.b.toNat * v.b.toNat) % P ∧
      (mulx u v).b.toNat = (u.a.toNat * v.b.toNat + u.b.toNat * v.a.toNat + u.b.toNat * v.b.toNat) % P := by
  constructor
  · simp only [mulx]
    rw [addp_toNat (mulp_lt _ _) (mulp_lt _ _), mulp_toNat, mulp_toNat]
    simp [Nat.add_mod]
  · simp only [mulx]
    rw [addp_toNat (addp_lt (mulp_lt _ _) (mulp_lt _ _)) (mulp_lt _ _), addp_toNat (mulp_lt _ _) (mulp_lt _ _),
      mulp_toNat, mulp_toNat, mulp_toNat]
    simp [Nat.add_mod]

/-! ### The exponentiation loop -/

/-- The masked select takes the candidate where the bit is 1 (41_field_ext.md R129). -/
@[simp] theorem maskSelect_true (x y : Scalar) : maskSelect (expMask true) x y = x := by
  have hx := x.isLt
  have h : expMask true = 0xFFFFFFFF#32 := by decide
  apply BitVec.eq_of_toNat_eq
  rw [maskSelect, h]
  simp [BitVec.toNat_and]
  rw [show (2147483647 : Nat) = 2 ^ 31 - 1 by rfl, Nat.and_two_pow_sub_one_eq_mod]
  omega

/-- The masked select keeps the accumulator where the bit is 0 (41_field_ext.md R129). -/
@[simp] theorem maskSelect_false (x y : Scalar) : maskSelect (expMask false) x y = y := by
  have hy := y.isLt
  have h : expMask false = 0#32 := by decide
  apply BitVec.eq_of_toNat_eq
  rw [maskSelect, h]
  simp [BitVec.toNat_and]
  rw [show (2147483647 : Nat) = 2 ^ 31 - 1 by rfl, Nat.and_two_pow_sub_one_eq_mod]
  omega

/-- One iteration, the branchless select read as a choice (41_field_ext.md R129). -/
theorem expIteration_eq (bit : Bool) (r : ExpRun) : expIteration bit r =
    { acc := if bit then mulx r.acc r.b else r.acc, b := mulx r.b r.b, iters := r.iters + 1 } := by
  cases bit <;> simp [expIteration]

/-! ### The element view -/

/-- Each component of the element view is its half modulo `P` (10_state.md R23). -/
theorem elemOf_toNat (v : Word) :
    (elemOf v).a.toNat = v.toNat % 2 ^ 32 % P ∧ (elemOf v).b.toNat = v.toNat / 2 ^ 32 % P := by
  have h := v.isLt
  simp only [elemOf, reduce_toNat, BitVec.toNat_setWidth, BitVec.extractLsb'_toNat, Nat.shiftRight_eq_div_pow, P]
  omega

/-- The packed word as a number (10_state.md R23). -/
theorem pack_toNat (e : Elem) : (pack e).toNat = e.b.toNat * 2 ^ 32 + e.a.toNat := by
  have ha := e.a.isLt
  have hb := e.b.isLt
  have ha' : e.a.toNat % 2 ^ 32 = e.a.toNat := Nat.mod_eq_of_lt (by omega)
  have hb' : e.b.toNat % 2 ^ 32 = e.b.toNat := Nat.mod_eq_of_lt (by omega)
  rw [pack, BitVec.toNat_append, BitVec.toNat_setWidth, BitVec.toNat_setWidth, ha', hb', Nat.shiftLeft_eq,
    Nat.mul_comm, ← Nat.two_pow_add_eq_or_of_lt (by omega)]

/-- A packed canonical element reads back as itself (10_state.md R23). -/
theorem elemOf_pack {e : Elem} (he : isCanonical e = true) : elemOf (pack e) = e := by
  rw [isCanonical_iff] at he
  have h := elemOf_toNat (pack e)
  rw [pack_toNat] at h
  simp only [P] at *
  exact elem_ext (by omega) (by omega)

end Sys2Proof.Machine.Laws
end

