-- ==== Sys2Proof/Laws/Memory.lean ====
section
/-! SUPPORT. What the memory operations do: reads after writes, and that each keeps the form of the memories. -/

namespace Sys2Proof.Machine.Laws

/-! ### Reads after writes -/

/-- Everything a write to `SEQ` can do. -/
theorem writeSeq_eq_some {m m' : Memory} {i : Nat} {e : Elem} (h : m.writeSeq i e = some m') :
    i < m.seq.length ∧ m' = { m with seq := m.seq.set i e } := by
  unfold Memory.writeSeq at h
  split at h
  · exact ⟨‹_›, (Option.some.inj h).symm⟩
  · cases h

theorem writeSeq_eq_none {m : Memory} {i : Nat} {e : Elem} : m.writeSeq i e = none ↔ m.seq.length ≤ i := by
  unfold Memory.writeSeq
  split <;> simp <;> omega

/-- Everything a write to `BYTE` can do. -/
theorem writeByte_eq_some {m m' : Memory} {i : Nat} {b : Byte} (h : m.writeByte i b = some m') :
    i < m.byte.length ∧ m' = { m with byte := m.byte.set i b } := by
  unfold Memory.writeByte at h
  split at h
  · exact ⟨‹_›, (Option.some.inj h).symm⟩
  · cases h

theorem writeByte_eq_none {m : Memory} {i : Nat} {b : Byte} : m.writeByte i b = none ↔ m.byte.length ≤ i := by
  unfold Memory.writeByte
  split <;> simp <;> omega

theorem readSeq_eq_none {m : Memory} {i : Nat} : m.readSeq i = none ↔ m.seq.length ≤ i := by
  simp [Memory.readSeq]

theorem readByte_eq_none {m : Memory} {i : Nat} : m.readByte i = none ↔ m.byte.length ≤ i := by
  simp [Memory.readByte]

theorem readText_eq_none {m : Memory} {i : Nat} : m.readText i = none ↔ m.text.length ≤ i := by
  simp [Memory.readText]

/-- A read of `SEQ` after a write to it: the written cell, and every other as before. -/
theorem readSeq_writeSeq {m m' : Memory} {i : Nat} {e : Elem} (h : m.writeSeq i e = some m') (j : Nat) :
    m'.readSeq j = if i = j then some e else m.readSeq j := by
  obtain ⟨hi, rfl⟩ := writeSeq_eq_some h
  simp only [Memory.readSeq, List.getElem?_set, hi]
  split <;> simp_all

/-- A read of `BYTE` after a write to it: the written cell, and every other as before. -/
theorem readByte_writeByte {m m' : Memory} {i : Nat} {b : Byte} (h : m.writeByte i b = some m') (j : Nat) :
    m'.readByte j = if i = j then some b else m.readByte j := by
  obtain ⟨hi, rfl⟩ := writeByte_eq_some h
  simp only [Memory.readByte, List.getElem?_set, hi]
  split <;> simp_all

/-! ### The form of the memories -/

/-- The form, clause by clause (10_state.md R27, R32). -/
theorem wf_iff {cap : Nat} {m : Memory} : m.wf cap = true ↔
    m.seq.length ≤ cap ∧ m.byte.length ≤ cap ∧ m.text.length ≤ cap ∧
      (∀ e ∈ m.seq, isCanonical e = true) ∧ ∀ b ∈ m.text, b.toNat < Config.asciiLimit := by
  simp [Memory.wf, and_assoc]

theorem writeSeq_wf {cap : Nat} {m m' : Memory} {i : Nat} {e : Elem} (hm : m.wf cap = true)
    (he : isCanonical e = true) (h : m.writeSeq i e = some m') : m'.wf cap = true := by
  obtain ⟨-, rfl⟩ := writeSeq_eq_some h
  rw [wf_iff] at hm ⊢
  obtain ⟨h1, h2, h3, h4, h5⟩ := hm
  refine ⟨by simpa using h1, h2, h3, fun c hc => ?_, h5⟩
  rcases List.mem_or_eq_of_mem_set hc with hc | rfl
  · exact h4 c hc
  · exact he

theorem writeByte_wf {cap : Nat} {m m' : Memory} {i : Nat} {b : Byte} (hm : m.wf cap = true)
    (h : m.writeByte i b = some m') : m'.wf cap = true := by
  obtain ⟨-, rfl⟩ := writeByte_eq_some h
  rw [wf_iff] at hm ⊢
  obtain ⟨h1, h2, h3, h4, h5⟩ := hm
  exact ⟨h1, by simpa using h2, h3, h4, h5⟩

theorem replaceSeq_wf {cap : Nat} {m : Memory} {cells : List Elem} (hm : m.wf cap = true)
    (hl : cells.length ≤ cap) (hc : ∀ e ∈ cells, isCanonical e = true) : (m.replaceSeq cells).wf cap = true := by
  rw [wf_iff] at hm ⊢
  exact ⟨hl, hm.2.1, hm.2.2.1, hc, hm.2.2.2.2⟩

theorem replaceByte_wf {cap : Nat} {m : Memory} {cells : List Byte} (hm : m.wf cap = true)
    (hl : cells.length ≤ cap) : (m.replaceByte cells).wf cap = true := by
  rw [wf_iff] at hm ⊢
  exact ⟨hm.1, hl, hm.2.2.1, hm.2.2.2.1, hm.2.2.2.2⟩

theorem replaceText_wf {cap : Nat} {m : Memory} {cells : List Byte} (hm : m.wf cap = true)
    (hl : cells.length ≤ cap) (hc : ∀ b ∈ cells, b.toNat < Config.asciiLimit) :
    (m.replaceText cells).wf cap = true := by
  rw [wf_iff] at hm ⊢
  exact ⟨hm.1, hm.2.1, hl, hm.2.2.2.1, hc⟩

/-- The memories right after reset have the form, whatever the capacity. -/
theorem reset_mem_wf (c : Config.Params) (cap : Nat) : (State.resetWith c).mem.wf cap = true := by
  simp [wf_iff, State.resetWith]

end Sys2Proof.Machine.Laws
end

