-- ==== Sys2Proof/Laws/State.lean ====
section
/-! SUPPORT. Every update of the state, field by field, and reading a register after each update. -/

namespace Sys2Proof.Machine.Laws

/-! ### setReg -/

@[simp] theorem setReg_cfg (s : State) (r : Reg) (v : Word) : (s.setReg r v).cfg = s.cfg := rfl
@[simp] theorem setReg_x (s : State) (r : Reg) (v : Word) : (s.setReg r v).x = s.x.set r.val v r.isLt := rfl
@[simp] theorem setReg_cc (s : State) (r : Reg) (v : Word) : (s.setReg r v).cc = s.cc := rfl
@[simp] theorem setReg_nop (s : State) (r : Reg) (v : Word) : (s.setReg r v).nop = s.nop := rfl
@[simp] theorem setReg_keyed (s : State) (r : Reg) (v : Word) : (s.setReg r v).keyed = s.keyed := rfl
@[simp] theorem setReg_chunk (s : State) (r : Reg) (v : Word) : (s.setReg r v).chunk = s.chunk := rfl
@[simp] theorem setReg_mem (s : State) (r : Reg) (v : Word) : (s.setReg r v).mem = s.mem := rfl
@[simp] theorem setReg_fault (s : State) (r : Reg) (v : Word) : (s.setReg r v).fault = s.fault := rfl
@[simp] theorem setReg_cause (s : State) (r : Reg) (v : Word) : (s.setReg r v).cause = s.cause := rfl
@[simp] theorem setReg_fcmd (s : State) (r : Reg) (v : Word) : (s.setReg r v).fcmd = s.fcmd := rfl
@[simp] theorem setReg_out (s : State) (r : Reg) (v : Word) : (s.setReg r v).out = s.out := rfl
@[simp] theorem setReg_chan (s : State) (r : Reg) (v : Word) : (s.setReg r v).chan = s.chan := rfl

/-! ### complete -/

@[simp] theorem complete_cfg (s : State) : (s.complete).cfg = s.cfg := rfl
@[simp] theorem complete_x (s : State) : (s.complete).x = s.x := rfl
@[simp] theorem complete_cc (s : State) : (s.complete).cc = s.cc + 1#64 := rfl
@[simp] theorem complete_nop (s : State) : (s.complete).nop = s.nop := rfl
@[simp] theorem complete_keyed (s : State) : (s.complete).keyed = s.keyed := rfl
@[simp] theorem complete_chunk (s : State) : (s.complete).chunk = s.chunk := rfl
@[simp] theorem complete_mem (s : State) : (s.complete).mem = s.mem := rfl
@[simp] theorem complete_fault (s : State) : (s.complete).fault = s.fault := rfl
@[simp] theorem complete_cause (s : State) : (s.complete).cause = s.cause := rfl
@[simp] theorem complete_fcmd (s : State) : (s.complete).fcmd = s.fcmd := rfl
@[simp] theorem complete_out (s : State) : (s.complete).out = s.out := rfl
@[simp] theorem complete_chan (s : State) : (s.complete).chan = s.chan := rfl
@[simp] theorem complete_reg (s : State) (q : Reg) : (s.complete).reg q = s.reg q := rfl

/-! ### emit -/

@[simp] theorem emit_cfg (s : State) (v : Word) : (s.emit v).cfg = s.cfg := rfl
@[simp] theorem emit_x (s : State) (v : Word) : (s.emit v).x = s.x := rfl
@[simp] theorem emit_cc (s : State) (v : Word) : (s.emit v).cc = s.cc := rfl
@[simp] theorem emit_nop (s : State) (v : Word) : (s.emit v).nop = s.nop := rfl
@[simp] theorem emit_keyed (s : State) (v : Word) : (s.emit v).keyed = s.keyed := rfl
@[simp] theorem emit_chunk (s : State) (v : Word) : (s.emit v).chunk = s.chunk := rfl
@[simp] theorem emit_mem (s : State) (v : Word) : (s.emit v).mem = s.mem := rfl
@[simp] theorem emit_fault (s : State) (v : Word) : (s.emit v).fault = s.fault := rfl
@[simp] theorem emit_cause (s : State) (v : Word) : (s.emit v).cause = s.cause := rfl
@[simp] theorem emit_fcmd (s : State) (v : Word) : (s.emit v).fcmd = s.fcmd := rfl
@[simp] theorem emit_out (s : State) (v : Word) : (s.emit v).out = s.out ++ [v] := rfl
@[simp] theorem emit_chan (s : State) (v : Word) : (s.emit v).chan = s.chan := rfl
@[simp] theorem emit_reg (s : State) (v : Word) (q : Reg) : (s.emit v).reg q = s.reg q := rfl

/-! ### setKeyed -/

@[simp] theorem setKeyed_cfg (s : State) (k : KeyedPair) : (s.setKeyed k).cfg = s.cfg := rfl
@[simp] theorem setKeyed_x (s : State) (k : KeyedPair) : (s.setKeyed k).x = s.x := rfl
@[simp] theorem setKeyed_cc (s : State) (k : KeyedPair) : (s.setKeyed k).cc = s.cc := rfl
@[simp] theorem setKeyed_nop (s : State) (k : KeyedPair) : (s.setKeyed k).nop = s.nop := rfl
@[simp] theorem setKeyed_keyed (s : State) (k : KeyedPair) : (s.setKeyed k).keyed = some k := rfl
@[simp] theorem setKeyed_chunk (s : State) (k : KeyedPair) : (s.setKeyed k).chunk = s.chunk := rfl
@[simp] theorem setKeyed_mem (s : State) (k : KeyedPair) : (s.setKeyed k).mem = s.mem := rfl
@[simp] theorem setKeyed_fault (s : State) (k : KeyedPair) : (s.setKeyed k).fault = s.fault := rfl
@[simp] theorem setKeyed_cause (s : State) (k : KeyedPair) : (s.setKeyed k).cause = s.cause := rfl
@[simp] theorem setKeyed_fcmd (s : State) (k : KeyedPair) : (s.setKeyed k).fcmd = s.fcmd := rfl
@[simp] theorem setKeyed_out (s : State) (k : KeyedPair) : (s.setKeyed k).out = s.out := rfl
@[simp] theorem setKeyed_chan (s : State) (k : KeyedPair) : (s.setKeyed k).chan = s.chan := rfl
@[simp] theorem setKeyed_reg (s : State) (k : KeyedPair) (q : Reg) : (s.setKeyed k).reg q = s.reg q := rfl

/-! ### setMem -/

@[simp] theorem setMem_cfg (s : State) (m : Memory) : (s.setMem m).cfg = s.cfg := rfl
@[simp] theorem setMem_x (s : State) (m : Memory) : (s.setMem m).x = s.x := rfl
@[simp] theorem setMem_cc (s : State) (m : Memory) : (s.setMem m).cc = s.cc := rfl
@[simp] theorem setMem_nop (s : State) (m : Memory) : (s.setMem m).nop = s.nop := rfl
@[simp] theorem setMem_keyed (s : State) (m : Memory) : (s.setMem m).keyed = s.keyed := rfl
@[simp] theorem setMem_chunk (s : State) (m : Memory) : (s.setMem m).chunk = s.chunk := rfl
@[simp] theorem setMem_mem (s : State) (m : Memory) : (s.setMem m).mem = m := rfl
@[simp] theorem setMem_fault (s : State) (m : Memory) : (s.setMem m).fault = s.fault := rfl
@[simp] theorem setMem_cause (s : State) (m : Memory) : (s.setMem m).cause = s.cause := rfl
@[simp] theorem setMem_fcmd (s : State) (m : Memory) : (s.setMem m).fcmd = s.fcmd := rfl
@[simp] theorem setMem_out (s : State) (m : Memory) : (s.setMem m).out = s.out := rfl
@[simp] theorem setMem_chan (s : State) (m : Memory) : (s.setMem m).chan = s.chan := rfl
@[simp] theorem setMem_reg (s : State) (m : Memory) (q : Reg) : (s.setMem m).reg q = s.reg q := rfl

/-! ### raiseFault -/

@[simp] theorem raiseFault_cfg (s : State) (c : FaultCause) (w : Word) : (s.raiseFault c w).cfg = s.cfg := rfl
@[simp] theorem raiseFault_x (s : State) (c : FaultCause) (w : Word) : (s.raiseFault c w).x = s.x := rfl
@[simp] theorem raiseFault_cc (s : State) (c : FaultCause) (w : Word) : (s.raiseFault c w).cc = s.cc := rfl
@[simp] theorem raiseFault_nop (s : State) (c : FaultCause) (w : Word) : (s.raiseFault c w).nop = s.nop := rfl
@[simp] theorem raiseFault_keyed (s : State) (c : FaultCause) (w : Word) : (s.raiseFault c w).keyed = s.keyed := rfl
@[simp] theorem raiseFault_chunk (s : State) (c : FaultCause) (w : Word) : (s.raiseFault c w).chunk = s.chunk := rfl
@[simp] theorem raiseFault_mem (s : State) (c : FaultCause) (w : Word) : (s.raiseFault c w).mem = s.mem := rfl
@[simp] theorem raiseFault_fault (s : State) (c : FaultCause) (w : Word) : (s.raiseFault c w).fault = true := rfl
@[simp] theorem raiseFault_cause (s : State) (c : FaultCause) (w : Word) : (s.raiseFault c w).cause = c.code := rfl
@[simp] theorem raiseFault_fcmd (s : State) (c : FaultCause) (w : Word) : (s.raiseFault c w).fcmd = w := rfl
@[simp] theorem raiseFault_out (s : State) (c : FaultCause) (w : Word) : (s.raiseFault c w).out = s.out := rfl
@[simp] theorem raiseFault_chan (s : State) (c : FaultCause) (w : Word) : (s.raiseFault c w).chan = s.chan := rfl
@[simp] theorem raiseFault_reg (s : State) (c : FaultCause) (w : Word) (q : Reg) : (s.raiseFault c w).reg q = s.reg q := rfl

/-! ### setNop -/

@[simp] theorem setNop_cfg (s : State) (b : Bool) : (s.setNop b).cfg = s.cfg := rfl
@[simp] theorem setNop_x (s : State) (b : Bool) : (s.setNop b).x = s.x := rfl
@[simp] theorem setNop_cc (s : State) (b : Bool) : (s.setNop b).cc = s.cc := rfl
@[simp] theorem setNop_nop (s : State) (b : Bool) : (s.setNop b).nop = b := rfl
@[simp] theorem setNop_keyed (s : State) (b : Bool) : (s.setNop b).keyed = s.keyed := rfl
@[simp] theorem setNop_chunk (s : State) (b : Bool) : (s.setNop b).chunk = s.chunk := rfl
@[simp] theorem setNop_mem (s : State) (b : Bool) : (s.setNop b).mem = s.mem := rfl
@[simp] theorem setNop_fault (s : State) (b : Bool) : (s.setNop b).fault = s.fault := rfl
@[simp] theorem setNop_cause (s : State) (b : Bool) : (s.setNop b).cause = s.cause := rfl
@[simp] theorem setNop_fcmd (s : State) (b : Bool) : (s.setNop b).fcmd = s.fcmd := rfl
@[simp] theorem setNop_out (s : State) (b : Bool) : (s.setNop b).out = s.out := rfl
@[simp] theorem setNop_chan (s : State) (b : Bool) : (s.setNop b).chan = s.chan := rfl
@[simp] theorem setNop_reg (s : State) (b : Bool) (q : Reg) : (s.setNop b).reg q = s.reg q := rfl

/-! ### chunkInit -/

@[simp] theorem chunkInit_cfg (s : State) : (s.chunkInit).cfg = s.cfg := rfl
@[simp] theorem chunkInit_x (s : State) : (s.chunkInit).x = s.x := rfl
@[simp] theorem chunkInit_cc (s : State) : (s.chunkInit).cc = s.cc := rfl
@[simp] theorem chunkInit_nop (s : State) : (s.chunkInit).nop = s.nop := rfl
@[simp] theorem chunkInit_keyed (s : State) : (s.chunkInit).keyed = s.keyed := rfl
@[simp] theorem chunkInit_chunk (s : State) : (s.chunkInit).chunk = some s.chunkValue := rfl
@[simp] theorem chunkInit_mem (s : State) : (s.chunkInit).mem = s.mem := rfl
@[simp] theorem chunkInit_fault (s : State) : (s.chunkInit).fault = s.fault := rfl
@[simp] theorem chunkInit_cause (s : State) : (s.chunkInit).cause = s.cause := rfl
@[simp] theorem chunkInit_fcmd (s : State) : (s.chunkInit).fcmd = s.fcmd := rfl
@[simp] theorem chunkInit_out (s : State) : (s.chunkInit).out = s.out := rfl
@[simp] theorem chunkInit_chan (s : State) : (s.chunkInit).chan = s.chan := rfl
@[simp] theorem chunkInit_reg (s : State) (q : Reg) : (s.chunkInit).reg q = s.reg q := rfl

/-! ### send -/

@[simp] theorem send_cfg (s : State) (w : Word) : (s.send w).cfg = s.cfg := rfl
@[simp] theorem send_x (s : State) (w : Word) : (s.send w).x = s.x := rfl
@[simp] theorem send_cc (s : State) (w : Word) : (s.send w).cc = s.cc := rfl
@[simp] theorem send_nop (s : State) (w : Word) : (s.send w).nop = s.nop := rfl
@[simp] theorem send_keyed (s : State) (w : Word) : (s.send w).keyed = s.keyed := rfl
@[simp] theorem send_chunk (s : State) (w : Word) : (s.send w).chunk = s.chunk := rfl
@[simp] theorem send_mem (s : State) (w : Word) : (s.send w).mem = s.mem := rfl
@[simp] theorem send_fault (s : State) (w : Word) : (s.send w).fault = s.fault := rfl
@[simp] theorem send_cause (s : State) (w : Word) : (s.send w).cause = s.cause := rfl
@[simp] theorem send_fcmd (s : State) (w : Word) : (s.send w).fcmd = s.fcmd := rfl
@[simp] theorem send_out (s : State) (w : Word) : (s.send w).out = s.out := rfl
@[simp] theorem send_chan (s : State) (w : Word) : (s.send w).chan = s.chan ++ [w] := rfl
@[simp] theorem send_reg (s : State) (w : Word) (q : Reg) : (s.send w).reg q = s.reg q := rfl

/-! ### pushWord -/

@[simp] theorem pushWord_cfg (s : State) (w : Word) : (s.pushWord w).cfg = s.cfg := rfl
@[simp] theorem pushWord_x (s : State) (w : Word) : (s.pushWord w).x = s.x := rfl
@[simp] theorem pushWord_cc (s : State) (w : Word) : (s.pushWord w).cc = s.cc := rfl
@[simp] theorem pushWord_nop (s : State) (w : Word) : (s.pushWord w).nop = s.nop := rfl
@[simp] theorem pushWord_keyed (s : State) (w : Word) : (s.pushWord w).keyed = s.keyed := rfl
@[simp] theorem pushWord_chunk (s : State) (w : Word) : (s.pushWord w).chunk = s.chunk := rfl
@[simp] theorem pushWord_mem (s : State) (w : Word) : (s.pushWord w).mem = s.mem := rfl
@[simp] theorem pushWord_fault (s : State) (w : Word) : (s.pushWord w).fault = s.fault := rfl
@[simp] theorem pushWord_cause (s : State) (w : Word) : (s.pushWord w).cause = s.cause := rfl
@[simp] theorem pushWord_fcmd (s : State) (w : Word) : (s.pushWord w).fcmd = s.fcmd := rfl
@[simp] theorem pushWord_out (s : State) (w : Word) : (s.pushWord w).out = s.out := rfl
@[simp] theorem pushWord_chan (s : State) (w : Word) : (s.pushWord w).chan = w :: s.chan := rfl
@[simp] theorem pushWord_reg (s : State) (w : Word) (q : Reg) : (s.pushWord w).reg q = s.reg q := rfl

/-! ### Registers -/

/-- Reading a register after a write (00_scope.md R8). -/
theorem reg_setReg (s : State) (r q : Reg) (v : Word) :
    (s.setReg r v).reg q = if q = r then v else s.reg q := by
  simp only [State.reg, State.setReg, Vector.get_eq_getElem, Vector.getElem_set, Fin.ext_iff, eq_comm]

@[simp] theorem reg_setReg_same (s : State) (r : Reg) (v : Word) : (s.setReg r v).reg r = v := by
  simp [reg_setReg]

@[simp] theorem reg_setReg_other (s : State) {r q : Reg} (v : Word) (h : q ≠ r) :
    (s.setReg r v).reg q = s.reg q := by
  simp [reg_setReg, h]

/-! ### Reset -/

@[simp] theorem resetWith_cfg (c : Config.Params) : (State.resetWith c).cfg = c := rfl
@[simp] theorem resetWith_reg (c : Config.Params) (r : Reg) : (State.resetWith c).reg r = 0#64 := by
  simp [State.reg, State.resetWith, Vector.get_eq_getElem]

end Sys2Proof.Machine.Laws
end

