-- ==== Sys2Proof/Laws/Outcomes.lean ====
section
/-! SUPPORT. Everything the shared endings of a command and one step can do. -/

namespace Sys2Proof.Machine.Laws

@[simp] theorem retire_eq_next {s t : State} : retire s = .next t ↔ s.complete = t := by
  simp [retire]

@[simp] theorem writeBack_eq_next {s t : State} {rd : Reg} {v : Word} :
    writeBack s rd v = .next t ↔ (s.setReg rd v).complete = t := by
  simp [writeBack]

@[simp] theorem faultOut_eq_next {s t : State} {c : FaultCause} {i : Instr} :
    faultOut s c i = .next t ↔ s.raiseFault c (encode i) = t := by
  simp [faultOut]

@[simp] theorem orFault_some {α : Type} (v : α) (s : State) (c : FaultCause) (i : Instr) (go : α → Result) :
    orFault (some v) s c i go = go v := rfl

@[simp] theorem orFault_none {α : Type} (s : State) (c : FaultCause) (i : Instr) (go : α → Result) :
    orFault none s c i go = faultOut s c i := rfl

/-- Everything `orFault` can do: go on with what is present, or take the fault. -/
theorem orFault_eq_next {α : Type} {o : Option α} {s t : State} {c : FaultCause} {i : Instr} {go : α → Result} :
    orFault o s c i go = .next t ↔
      (∃ v, o = some v ∧ go v = .next t) ∨ (o = none ∧ s.raiseFault c (encode i) = t) := by
  cases o <;> simp

/-- The chunk size after first use: what was held, or the computed value (42_transform.md R151). -/
theorem chunkValue_eq (s : State) :
    s.chunkValue = s.chunk.getD (BitVec.ofNat 32 (chunkBytes s.cfg.nlanes.toNat)) := by
  unfold State.chunkValue
  cases s.chunk <;> rfl

/-! ### The channel and one step -/

@[simp] theorem takeWord_nil {s : State} (h : s.chan = []) : s.takeWord = none := by
  simp [State.takeWord, h]

@[simp] theorem takeWord_cons {s : State} {w : Word} {rest : List Word} (h : s.chan = w :: rest) :
    s.takeWord = some (w, { s with chan := rest }) := by
  simp [State.takeWord, h]

/-- Everything one step can do (60_exceptions.md R242). -/
theorem step_eq_next {s t : State} (h : step s = .next t) :
    (s.chan = [] ∧ t = s) ∨
    (∃ w rest, s.chan = w :: rest ∧ s.fault = true ∧ t = { s with chan := rest }) ∨
    (∃ w rest why, s.chan = w :: rest ∧ s.fault = false ∧ decode w = .illegal why ∧
      t = ({ s with chan := rest } : State).raiseFault .illegal w) ∨
    (∃ w rest i, s.chan = w :: rest ∧ s.fault = false ∧ decode w = .command i ∧
      exec i { s with chan := rest } = .next t) := by
  rcases hc : s.chan with _ | ⟨w, rest⟩
  · rw [step, takeWord_nil hc] at h
    exact .inl ⟨rfl, by simpa using h.symm⟩
  · rw [step, takeWord_cons hc] at h
    cases hf : s.fault
    · rcases hd : decode w with i | why <;> simp [hf, hd] at h
      · exact .inr (.inr (.inr ⟨w, rest, i, rfl, rfl, hd, h⟩))
      · exact .inr (.inr (.inl ⟨w, rest, why, rfl, rfl, hd, h.symm⟩))
    · simp [hf] at h
      exact .inr (.inl ⟨w, rest, rfl, rfl, h.symm⟩)

end Sys2Proof.Machine.Laws
end

