-- ==== Sys2Proof/Laws/Passes.lean ====
section
/-! SUPPORT. The passes and the frame operations cell by cell, their lengths, and that they keep cells canonical. -/

namespace Sys2Proof.Machine.Laws

open Config

/-! ### Passes -/

@[simp] theorem haarPass_length (s : List Elem) : (haarPass s).length = s.length := by
  simp [haarPass]

/-- The Haar pass, cell by cell (42_transform.md R154). -/
@[simp] theorem haarPass_getElem? (s : List Elem) (i : Nat) : (haarPass s)[i]? = s[i]?.map (haarCell i) := by
  simp [haarPass]

@[simp] theorem phiPass_length (s : List Elem) (f : Elem) : (phiPass s f).1.length = s.length := by
  simp [phiPass]

/-- The phi pass, cell by cell (42_transform.md R155). -/
@[simp] theorem phiPass_getElem? (s : List Elem) (f : Elem) (i : Nat) :
    (phiPass s f).1[i]? = s[i]?.map fun e => mulx e f := by
  simp [phiPass]

@[simp] theorem toFreq_length (s : List Elem) (f : Elem) : (toFreq s f).length = s.length := by
  simp [toFreq]

/-- The forward transform, cell by cell: the sign first, then the factor (43_frame.md R172). -/
@[simp] theorem toFreq_getElem? (s : List Elem) (f : Elem) (i : Nat) :
    (toFreq s f)[i]? = s[i]?.map fun e => mulx (haarCell i e) f := by
  simp [toFreq, Function.comp_def]

@[simp] theorem processData_length (b : List Byte) (f : Elem) : (processData b f).length = b.length := by
  simp [processData]

/-- The encoding of a byte string, cell by cell (43_frame.md R174). -/
@[simp] theorem processData_getElem? (b : List Byte) (f : Elem) (i : Nat) :
    (processData b f)[i]? = b[i]?.map fun c => mulx (haarCell i (s2f (c.setWidth 64))) f := by
  simp [processData, Function.comp_def]

/-! ### Cells stay canonical -/

theorem haarCell_canonical {i : Nat} {e : Elem} (he : isCanonical e = true) : isCanonical (haarCell i e) = true := by
  unfold haarCell
  split
  · exact isCanonical_negx he
  · exact he

theorem haarPass_canonical {s : List Elem} (hs : ∀ e ∈ s, isCanonical e = true) :
    ∀ e ∈ haarPass s, isCanonical e = true := by
  intro e he
  obtain ⟨i, hi, rfl⟩ := List.mem_mapIdx.1 he
  exact haarCell_canonical (hs _ (List.getElem_mem hi))

theorem phiPass_canonical (s : List Elem) (f : Elem) : ∀ e ∈ (phiPass s f).1, isCanonical e = true := by
  intro e he
  obtain ⟨c, -, rfl⟩ := List.mem_map.1 he
  exact isCanonical_mulx c f

theorem toFreq_canonical (s : List Elem) (f : Elem) : ∀ e ∈ toFreq s f, isCanonical e = true :=
  phiPass_canonical _ f

theorem processData_canonical (b : List Byte) (f : Elem) : ∀ e ∈ processData b f, isCanonical e = true :=
  toFreq_canonical _ f

/-! ### Edit -/

/-- Where a partner exists, it is `start + span/2` and lies within the sequence (43_frame.md R176). -/
theorem partnerOf_eq_some {selfPair : Bool} {len level start q : Nat} :
    partnerOf selfPair len level start = some q ↔
      (level = 0 → selfPair = true) ∧ q = start + 2 ^ level / 2 ∧ q < len := by
  unfold partnerOf pairHalf
  by_cases h0 : level = 0 <;> cases selfPair <;> simp [h0] <;> omega

@[simp] theorem editFrequency_length (sp : Bool) (s : List Elem) (level pos : Nat) (nv f : Elem) :
    (editFrequency sp s level pos nv f).length = s.length := by
  simp only [editFrequency]
  split
  · split <;> simp
  · rfl

theorem editFrequency_canonical {sp : Bool} {s : List Elem} {level pos : Nat} {nv f : Elem}
    (hs : ∀ e ∈ s, isCanonical e = true) : ∀ e ∈ editFrequency sp s level pos nv f, isCanonical e = true := by
  have ht : isCanonical (mulx nv f) = true := isCanonical_mulx nv f
  intro e he
  simp only [editFrequency] at he
  split at he
  · split at he
    · rcases List.mem_or_eq_of_mem_set he with he | rfl
      · rcases List.mem_or_eq_of_mem_set he with he | rfl
        · exact hs e he
        · exact ht
      · exact isCanonical_negx ht
    · rcases List.mem_or_eq_of_mem_set he with he | rfl
      · exact hs e he
      · exact ht
  · exact hs e he

/-! ### Reconstruction -/

/-- A decoded byte is below the limit (43_frame.md R180). -/
theorem decodeCell_lt {i : Nat} {e : Elem} {b : Byte} (h : decodeCell i e = some b) : b.toNat < asciiLimit := by
  unfold decodeCell at h
  split at h
  · simp only at h
    generalize (if i % 2 = 1 then negp e.a else e.a) = v at h
    split at h
    · cases h
      rw [BitVec.toNat_setWidth]
      exact Nat.lt_of_le_of_lt (Nat.mod_le _ _) ‹_›
    · cases h
  · cases h

theorem reconstruct_lt (s : List Elem) (f : Elem) : ∀ b ∈ reconstruct s f, b.toNat < asciiLimit := by
  intro b hb
  simp only [reconstruct, List.mem_filterMap, List.mem_mapIdx, id_eq] at hb
  obtain ⟨o, ⟨i, hi, rfl⟩, ho⟩ := hb
  exact decodeCell_lt ho

theorem reconstruct_length_le (s : List Elem) (f : Elem) : (reconstruct s f).length ≤ s.length := by
  unfold reconstruct
  refine (List.length_filterMap_le _ _).trans ?_
  simp

end Sys2Proof.Machine.Laws
end

