-- ==== Sys2Proof/Laws/PerInstr.lean ====
section
/-! SUPPORT. A fact of every command as syntax, one lemma per constructor. -/

namespace Sys2Proof.Laws

/-- The command's opcode has a row in the opcode map, and the `zero` field of its word is 0 (30_encoding.md R72, R74). -/
def EncodedRow.Statement (i : Instr) : Prop := (rowOf i.fields.opcode).isSome = true ∧ i.fields.zero = 0#12

theorem EncodedRow.lil (rd : Reg) (imm : BitVec 32) : EncodedRow.Statement (.lil rd imm) :=
  ⟨by rfl, rfl⟩

theorem EncodedRow.lih (rd : Reg) (imm : BitVec 32) : EncodedRow.Statement (.lih rd imm) :=
  ⟨by rfl, rfl⟩

theorem EncodedRow.mov (rd rs1 : Reg) : EncodedRow.Statement (.mov rd rs1) :=
  ⟨by rfl, rfl⟩

theorem EncodedRow.rdsr (rd : Reg) (sr : BitVec 32) : EncodedRow.Statement (.rdsr rd sr) :=
  ⟨by rfl, rfl⟩

theorem EncodedRow.out (rs1 : Reg) : EncodedRow.Statement (.out rs1) :=
  ⟨by rfl, rfl⟩

theorem EncodedRow.nop : EncodedRow.Statement (.nop) :=
  ⟨by rfl, rfl⟩

theorem EncodedRow.red (rd rs1 : Reg) : EncodedRow.Statement (.red rd rs1) :=
  ⟨by rfl, rfl⟩

theorem EncodedRow.addp (rd rs1 rs2 : Reg) : EncodedRow.Statement (.addp rd rs1 rs2) :=
  ⟨by rfl, rfl⟩

theorem EncodedRow.subp (rd rs1 rs2 : Reg) : EncodedRow.Statement (.subp rd rs1 rs2) :=
  ⟨by rfl, rfl⟩

theorem EncodedRow.mulp (rd rs1 rs2 : Reg) : EncodedRow.Statement (.mulp rd rs1 rs2) :=
  ⟨by rfl, rfl⟩

theorem EncodedRow.chkirr (rd : Reg) : EncodedRow.Statement (.chkirr rd) :=
  ⟨by rfl, rfl⟩

theorem EncodedRow.s2f (rd rs1 : Reg) : EncodedRow.Statement (.s2f rd rs1) :=
  ⟨by rfl, rfl⟩

theorem EncodedRow.addx (rd rs1 rs2 : Reg) : EncodedRow.Statement (.addx rd rs1 rs2) :=
  ⟨by rfl, rfl⟩

theorem EncodedRow.subx (rd rs1 rs2 : Reg) : EncodedRow.Statement (.subx rd rs1 rs2) :=
  ⟨by rfl, rfl⟩

theorem EncodedRow.negx (rd rs1 : Reg) : EncodedRow.Statement (.negx rd rs1) :=
  ⟨by rfl, rfl⟩

theorem EncodedRow.mulx (rd rs1 rs2 : Reg) : EncodedRow.Statement (.mulx rd rs1 rs2) :=
  ⟨by rfl, rfl⟩

theorem EncodedRow.expx (rd rs1 rs2 : Reg) : EncodedRow.Statement (.expx rd rs1 rs2) :=
  ⟨by rfl, rfl⟩

theorem EncodedRow.expix (rd rs1 rs2 : Reg) : EncodedRow.Statement (.expix rd rs1 rs2) :=
  ⟨by rfl, rfl⟩

theorem EncodedRow.newseq (rs1 : Reg) : EncodedRow.Statement (.newseq rs1) :=
  ⟨by rfl, rfl⟩

theorem EncodedRow.lde (rd rs1 : Reg) : EncodedRow.Statement (.lde rd rs1) :=
  ⟨by rfl, rfl⟩

theorem EncodedRow.ste (rs1 rs2 : Reg) : EncodedRow.Statement (.ste rs1 rs2) :=
  ⟨by rfl, rfl⟩

theorem EncodedRow.newbuf (rs1 : Reg) : EncodedRow.Statement (.newbuf rs1) :=
  ⟨by rfl, rfl⟩

theorem EncodedRow.ldb (rd rs1 : Reg) : EncodedRow.Statement (.ldb rd rs1) :=
  ⟨by rfl, rfl⟩

theorem EncodedRow.stb (rs1 rs2 : Reg) : EncodedRow.Statement (.stb rs1 rs2) :=
  ⟨by rfl, rfl⟩

theorem EncodedRow.ldt (rd rs1 : Reg) : EncodedRow.Statement (.ldt rd rs1) :=
  ⟨by rfl, rfl⟩

theorem EncodedRow.haar : EncodedRow.Statement (.haar) :=
  ⟨by rfl, rfl⟩

theorem EncodedRow.phi (rs1 : Reg) : EncodedRow.Statement (.phi rs1) :=
  ⟨by rfl, rfl⟩

theorem EncodedRow.keyld (rs1 : Reg) : EncodedRow.Statement (.keyld rs1) :=
  ⟨by rfl, rfl⟩

theorem EncodedRow.tofreq : EncodedRow.Statement (.tofreq) :=
  ⟨by rfl, rfl⟩

theorem EncodedRow.proc : EncodedRow.Statement (.proc) :=
  ⟨by rfl, rfl⟩

theorem EncodedRow.edit (rs1 rs2 : Reg) (level : BitVec 32) : EncodedRow.Statement (.edit rs1 rs2 level) :=
  ⟨by rfl, rfl⟩

theorem EncodedRow.verify (rd : Reg) : EncodedRow.Statement (.verify rd) :=
  ⟨by rfl, rfl⟩

theorem EncodedRow.recon : EncodedRow.Statement (.recon) :=
  ⟨by rfl, rfl⟩

end Sys2Proof.Laws
end

