-- ==== Sys2Proof/Tests/Slice0.lean ====
section
/-! SUPPORT. The implementer's own tests. Expected values are the spec's: 95_test_vectors.md (V-..., P...) or the worked
example of the rule named. -/

namespace Sys2Proof.Tests

open Sys2Proof.Machine

/-! ## Well-formedness: each check refuses an ill-formed term -/

theorem test_wf_refuses_system_register_9 : (Instr.rdsr 1 9#32).wf = false := by decide
theorem test_wf_accepts_system_register_8 : (Instr.rdsr 1 8#32).wf = true := by decide
theorem test_wf_refuses_level_64 : (Instr.edit 1 2 64#32).wf = false := by decide
theorem test_wf_accepts_level_63 : (Instr.edit 1 2 63#32).wf = true := by decide

/-! ## Decoding: every constructor, from a word written out from 30_encoding.md R71 and R74 -/

/-- Opcode 0x0_ in bits 63:56, rd in 55:52, rs1 in 51:48, the immediate in 31:0. -/
theorem test_decode_system :
    [0x01100000DEADBEEF#64, 0x0210000000000003#64, 0x0332000000000000#64, 0x0440000000000005#64,
      0x0503000000000000#64, 0x0600000000000000#64].map decode =
    [.command (.lil 1 0xDEADBEEF#32), .command (.lih 1 3#32), .command (.mov 3 2), .command (.rdsr 4 5#32),
      .command (.out 3), .command .nop] := by decide

theorem test_decode_scalar :
    [0x1087000000000000#64, 0x1131200000000000#64, 0x1231200000000000#64, 0x1331200000000000#64,
      0x14F0000000000000#64].map decode =
    [.command (.red 8 7), .command (.addp 3 1 2), .command (.subp 3 1 2), .command (.mulp 3 1 2),
      .command (.chkirr 15)] := by decide

theorem test_decode_ext :
    [0x2021000000000000#64, 0x2176600000000000#64, 0x2231200000000000#64, 0x2321000000000000#64,
      0x2453400000000000#64, 0x2531200000000000#64, 0x2641200000000000#64].map decode =
    [.command (.s2f 2 1), .command (.addx 7 6 6), .command (.subx 3 1 2), .command (.negx 2 1),
      .command (.mulx 5 3 4), .command (.expx 3 1 2), .command (.expix 4 1 2)] := by decide

theorem test_decode_memory :
    [0x3001000000000000#64, 0x3151000000000000#64, 0x320FF00000000000#64, 0x3301000000000000#64,
      0x3421000000000000#64, 0x3501200000000000#64, 0x3672000000000000#64].map decode =
    [.command (.newseq 1), .command (.lde 5 1), .command (.ste 15 15), .command (.newbuf 1), .command (.ldb 2 1),
      .command (.stb 1 2), .command (.ldt 7 2)] := by decide

theorem test_decode_transform :
    [0x4000000000000000#64, 0x4102000000000000#64].map decode = [.command .haar, .command (.phi 2)] := by decide

theorem test_decode_frame :
    [0x5004000000000000#64, 0x5100000000000000#64, 0x5200000000000000#64, 0x530120000000003F#64,
      0x5480000000000000#64, 0x5500000000000000#64].map decode =
    [.command (.keyld 4), .command .tofreq, .command .proc, .command (.edit 1 2 63#32), .command (.verify 8),
      .command .recon] := by decide

/-- The illegal words of 95_test_vectors.md 2.14. -/
theorem test_decode_illegal :
    [0x0000000000000000#64, 0xFFFFFFFFFFFFFFFF#64, 0x0600000000000001#64, 0x0610000000000000#64,
      0x1131200100000000#64, 0x1131200000000005#64, 0x0410000000000009#64, 0x0410000000000010#64,
      0x0411000000000000#64, 0x5301200000000040#64, 0x5331200000000001#64, 0x0513000000000000#64,
      0x0111000000000005#64, 0x0700000000000000#64, 0x1500000000000000#64, 0x2700000000000000#64,
      0x3700000000000000#64, 0x4200000000000000#64, 0x5600000000000000#64, 0x5004100000000000#64].all
      (fun w => (decode w).toOption == none) = true := by decide

theorem test_encode_add : encode (.addp 3 1 2) = 0x1131200000000000#64 := by decide
theorem test_opcode_table_has_33_rows : opTable.length = 33 ∧ opcodeMap.length = 33 := by decide
theorem test_opcode_rows_are_distinct : (opTable.map OpRow.opcode).Nodup := by decide
theorem test_mnemonics_agree : opTable.map OpRow.mnemonic = opcodeMap.map MapRow.mnemonic := by decide
theorem test_table_word_reads_nop : decodeTableWord 64 0x0600000000000000 = some .nop := by decide

/-- Least significant byte first (20_memory.md R53). -/
theorem test_word_bytes :
    bytesOfWord 0x0102030405060708#64 = [8#8, 7#8, 6#8, 5#8, 4#8, 3#8, 2#8, 1#8] ∧
      wordOfBytes [8#8, 7#8, 6#8, 5#8, 4#8, 3#8, 2#8, 1#8] = 0x0102030405060708#64 := by decide

/-! ## Small states -/

/-- `NLANES = 4`, `CAP = 1024`, the parameters of 95_test_vectors.md section 3. -/
def cfg4 : Config.Params := ⟨4#32, 1024#32, by decide, by decide⟩

/-- The reset state of that block, with some registers written. -/
def regs (l : List (Reg × Word)) : State := l.foldl (fun s p => s.setReg p.1 p.2) (State.resetWith cfg4)

/-- The pair of key 1 (V-KEY-2). -/
def key1 : KeyedPair := ⟨⟨0#31, 1#31⟩, ⟨2147483646#31, 1#31⟩⟩

/-- The pair of key 2 (V-KEY-3). -/
def key2 : KeyedPair := ⟨⟨1#31, 1#31⟩, ⟨2#31, 2147483646#31⟩⟩

/-- The state with a sequence. -/
def withSeq (s : State) (l : List Elem) : State := s.setMem (s.mem.replaceSeq l)

/-- The state with input bytes. -/
def withByte (s : State) (l : List Byte) : State := s.setMem (s.mem.replaceByte l)

/-- The state with text. -/
def withText (s : State) (l : List Byte) : State := s.setMem (s.mem.replaceText l)

/-- What is seen of the next state. -/
def seen {α : Type} (r : Result) (f : State → α) : Option α :=
  match r with
  | .next t => some (f t)
  | .fault _ => none
  | .refused _ => none

/-! ## Commands -/

-- V-RED-13, V-RED-14
theorem test_red_all_ones :
    seen (exec (.red 2 1) (regs [(1, 0xFFFFFFFFFFFFFFFF#64)])) (fun t => t.reg 2) = some 3#64 := by decide
theorem test_red_in_place :
    seen (exec (.red 1 1) (regs [(1, 0xDEADBEEFCAFEBABE#64)])) (fun t => (t.reg 1, t.cc))
      = some (0x85A38A1#64, 1#64) := by decide

-- V-SCA-12, V-SCA-14
theorem test_addp_unreduced :
    seen (exec (.addp 3 1 2) (regs [(1, 0xDEADBEEFCAFEBABE#64), (2, 0xFFFFFFFF#64)])) (fun t => t.reg 3)
      = some 140130466#64 := by decide
-- V-SCA-5
theorem test_subp_underflow :
    seen (exec (.subp 3 1 2) (regs [(1, 3#64), (2, 0x7FFFFFFE#64)])) (fun t => t.reg 3) = some 4#64 := by decide
-- V-SCA-8
theorem test_mulp :
    seen (exec (.mulp 3 1 2) (regs [(1, 123456789#64), (2, 987654321#64)])) (fun t => t.reg 3)
      = some 0x7F61B5AE#64 := by decide
-- V-IRR-2
theorem test_chkirr : seen (exec (.chkirr 15) (regs [])) (fun t => t.reg 15) = some 1#64 := by decide +kernel

-- V-EXT-5
theorem test_s2f : seen (exec (.s2f 2 1) (regs [(1, 0xFFFFFFFFFFFFFFFF#64)])) (fun t => t.reg 2) = some 3#64 := by
  decide
-- V-EXT-7, V-EXT-13
theorem test_addx :
    seen (exec (.addx 3 1 2) (regs [(1, 0x3ADE68B1075BCD15#64), (2, 0x000000057FFFFFFE#64)])) (fun t => t.reg 3)
      = some 0x3ADE68B6075BCD14#64 := by decide
theorem test_addx_unreduced :
    seen (exec (.addx 3 1 2) (regs [(1, 0xFFFFFFFF7FFFFFFF#64), (2, 0x80000005FFFFFFFE#64)])) (fun t => t.reg 3)
      = some 0x0000000700000000#64 := by decide
-- V-EXT-15
theorem test_subx :
    seen (exec (.subx 3 1 2) (regs [(1, 0x000000057FFFFFFE#64), (2, 0x3ADE68B1075BCD15#64)])) (fun t => t.reg 3)
      = some 0x4521975378A432E9#64 := by decide
-- V-EXT-28
theorem test_negx :
    seen (exec (.negx 2 1) (regs [(1, 0x3ADE68B1075BCD15#64)])) (fun t => t.reg 2)
      = some 0x4521974E78A432EA#64 := by decide
-- V-EXT-21
theorem test_mulx :
    seen (exec (.mulx 3 1 2) (regs [(1, 0x3ADE68B1075BCD15#64), (2, 0x000000057FFFFFFE#64)])) (fun t => t.reg 3)
      = some 0x1044A42F1EFC3E62#64 := by decide
-- V-EXP-21, V-EXP-13
theorem test_expx :
    seen (exec (.expx 3 1 2) (regs [(1, 0x0000000300000002#64), (2, 5#64)])) (fun t => t.reg 3)
      = some 0x00001A6D00001055#64 := by decide +kernel
theorem test_expx_long :
    seen (exec (.expx 1 1 2) (regs [(1, 0x100000000#64), (2, 0x3FFFFFFEFFFFFFFF#64)])) (fun t => t.reg 1)
      = some 0x000000017FFFFFFE#64 := by decide +kernel
-- V-EXI-12
theorem test_expix :
    seen (exec (.expix 3 1 2) (regs [(1, 0x0000000300000002#64), (2, 5#64)])) (fun t => t.reg 3)
      = some 0x7FFFE59200002AC2#64 := by decide +kernel
-- V-EXP-16, V-EXI-12
theorem test_iterations :
    iterations (.expx 3 1 2) (regs [(1, 3#64), (2, 0xFFFFFFFFFFFFFFFF#64)]) = [34] ∧
      iterations (.expix 3 1 2) (regs [(1, 3#64), (2, 5#64)]) = [62] := by decide +kernel

-- V-MOV-1, V-MOV-2, V-MOV-3, V-MOV-5
theorem test_nop : exec .nop (regs []) = .next (regs []).complete := rfl
theorem test_lil_clears_upper_half :
    seen (exec (.lil 1 0xDEADBEEF#32) (regs [(1, 0xFFFFFFFFFFFFFFFF#64)])) (fun t => t.reg 1)
      = some 0xDEADBEEF#64 := by decide
theorem test_lih_keeps_lower_half :
    seen (exec (.lih 1 3#32) (regs [(1, 2#64)])) (fun t => t.reg 1) = some 0x0000000300000002#64 := by decide
theorem test_mov_is_raw :
    seen (exec (.mov 3 2) (regs [(2, 0xFFFFFFFF7FFFFFFF#64)])) (fun t => t.reg 3)
      = some 0xFFFFFFFF7FFFFFFF#64 := by decide
-- V-MOV-12, V-MOV-13
theorem test_rdsr_chunk :
    seen (exec (.rdsr 1 7#32) (regs [])) (fun t => (t.reg 1, t.chv)) = some (0x10000#64, true) := by decide
theorem test_rdsr_cfg :
    seen (exec (.rdsr 1 8#32) (regs [])) (fun t => t.reg 1) = some 0x0000040000000004#64 := by decide
-- V-MOV-14
theorem test_out :
    seen (exec (.out 3) (regs [(3, 0x0000003700000022#64)])) (fun t => t.out) = some [0x0000003700000022#64] := by
  decide

-- V-MOV-15, V-MOV-16
theorem test_newseq :
    seen (exec (.newseq 1) (regs [(1, 4#64)])) (fun t => t.mem.seq) = some (List.replicate 4 ⟨0#31, 0#31⟩) := by
  decide
theorem test_newseq_beyond_cap :
    seen (exec (.newseq 1) (regs [(1, 1025#64)])) (fun t => (t.fault, t.cause, t.fcmd, t.cc))
      = some (true, 4#4, 0x3001000000000000#64, 0#64) := by decide
-- V-MOV-18, V-MOV-20
theorem test_lde :
    seen (exec (.lde 5 1) (withSeq (regs [(1, 2#64)]) [⟨0, 0⟩, ⟨0, 0⟩, ⟨16, 25⟩])) (fun t => t.reg 5)
      = some 0x0000001900000010#64 := by decide
theorem test_lde_index_is_not_truncated :
    seen (exec (.lde 5 1) (withSeq (regs [(1, 0x100000000#64)]) [⟨1, 0⟩])) (fun t => (t.cause, t.fcmd))
      = some (3#4, 0x3151000000000000#64) := by decide
-- V-MOV-22
theorem test_ste_reduces :
    seen (exec (.ste 1 2) (withSeq (regs [(2, 0xFFFFFFFF7FFFFFFF#64)]) [⟨9, 9⟩, ⟨7, 7⟩])) (fun t => t.mem.seq)
      = some [⟨0, 1⟩, ⟨7, 7⟩] := by decide
-- V-MOV-23
theorem test_newbuf :
    seen (exec (.newbuf 1) (regs [(1, 3#64)])) (fun t => t.mem.byte) = some [0#8, 0#8, 0#8] := by decide
-- V-MOV-24
theorem test_ldb :
    seen (exec (.ldb 2 1) (withByte (regs [(1, 1#64)]) [0x48, 0x69, 0x21])) (fun t => t.reg 2)
      = some 0x69#64 := by decide
-- V-MOV-25, V-MOV-26
theorem test_stb_truncates :
    seen (exec (.stb 1 2) (withByte (regs [(2, 0x1FF#64)]) [0, 0, 0])) (fun t => t.mem.byte)
      = some [0xFF, 0, 0] := by decide
theorem test_stb_at_length :
    seen (exec (.stb 1 2) (withByte (regs [(1, 3#64)]) [0, 0, 0])) (fun t => (t.mem.byte, t.cause))
      = some ([0, 0, 0], 3#4) := by decide
-- V-MOV-27
theorem test_ldt :
    seen (exec (.ldt 2 1) (withText (regs [(1, 2#64)]) [0x48, 0x69, 0x21])) (fun t => t.reg 2)
      = some 0x21#64 := by decide

-- V-TRF-2
theorem test_haar :
    seen (exec .haar (withSeq (regs []) [⟨1, 2⟩, ⟨3, 4⟩, ⟨0, 0⟩, ⟨0, 5⟩])) (fun t => (t.mem.seq, t.nop, t.chv))
      = some ([⟨1, 2⟩, ⟨2147483644, 2147483643⟩, ⟨0, 0⟩, ⟨0, 2147483642⟩], false, true) := by decide
-- V-TRF-10, V-TRF-6
theorem test_phi :
    seen (exec (.phi 1) (withSeq (regs [(1, 0xFFFFFFFF7FFFFFFF#64)]) [⟨72, 0⟩, ⟨2147483542, 0⟩]))
      (fun t => (t.mem.seq, t.nop)) = some ([⟨0, 72⟩, ⟨0, 2147483542⟩], false) := by decide
theorem test_phi_on_empty_sequence :
    seen (exec (.phi 1) (regs [])) (fun t => t.statusWord) = some 6#64 := by decide

-- V-KEY-5, V-KEY-7
theorem test_keyld :
    seen (exec (.keyld 1) (regs [(1, 0xDEADBEEF#64)])) (fun t => t.keyed)
      = some (some ⟨⟨825034162, 257699235⟩, ⟨1064750250, 257699235⟩⟩) := by decide +kernel
theorem test_keyld_ignores_upper_half :
    seen (exec (.keyld 1) (regs [(1, 0x1234567800000001#64)])) (fun t => t.keyed) = some (some key1) := by
  decide +kernel
-- 43_frame.md R173, V-FLT-2
theorem test_tofreq :
    seen (exec .tofreq (withSeq ((regs []).setKeyed key1) [⟨72, 0⟩, ⟨105, 0⟩, ⟨33, 0⟩])) (fun t => t.mem.seq)
      = some [⟨0, 72⟩, ⟨0, 2147483542⟩, ⟨0, 33⟩] := by decide
theorem test_proc_without_key :
    seen (exec .proc (regs [])) (fun t => (t.cause, t.fcmd, t.chv)) = some (2#4, 0x5200000000000000#64, false) := by
  decide
-- 95_test_vectors.md 2.10, second example
theorem test_proc :
    seen (exec .proc (withByte ((regs []).setKeyed key2) [0x41, 0x42, 0x80, 0xFF, 0x00, 0x7F]))
      (fun t => t.mem.seq)
      = some [⟨65, 65⟩, ⟨2147483581, 2147483581⟩, ⟨128, 128⟩, ⟨2147483392, 2147483392⟩, ⟨0, 0⟩,
          ⟨2147483520, 2147483520⟩] := by decide
theorem test_recon :
    seen (exec .recon (withSeq ((regs []).setKeyed key2) [⟨65, 65⟩, ⟨2147483581, 2147483581⟩, ⟨128, 128⟩,
      ⟨2147483392, 2147483392⟩, ⟨0, 0⟩, ⟨2147483520, 2147483520⟩]))
      (fun t => (t.mem.text, t.tlen)) = some ([0x41, 0x42, 0x00, 0x7F], 4#32) := by decide
-- P3, V-EDT-9
theorem test_edit :
    seen (exec (.edit 3 4 1) (withSeq ((regs [(3, 1#64), (4, 0x0000000900000007#64)]).setKeyed key2)
      (List.replicate 4 ⟨0, 0⟩))) (fun t => t.mem.seq)
      = some [⟨0, 0⟩, ⟨0, 0⟩, ⟨16, 25⟩, ⟨2147483631, 2147483622⟩] := by decide
theorem test_edit_start_is_not_wrapped :
    seen (exec (.edit 3 4 1) (withSeq ((regs [(3, 0x8000000000000000#64), (4, 5#64)]).setKeyed key2)
      [⟨0, 0⟩, ⟨0, 0⟩])) (fun t => (t.mem.seq, t.cc, t.fault)) = some ([⟨0, 0⟩, ⟨0, 0⟩], 1#64, false) := by decide
-- V-VER-3, V-VER-6
theorem test_verify_zero_sequence :
    seen (exec (.verify 3) (withSeq (regs []) (List.replicate 5 ⟨0, 0⟩))) (fun t => t.reg 3) = some 1#64 := by
  decide
theorem test_verify_antisymmetric_pair :
    seen (exec (.verify 3) (withSeq (regs []) [⟨5, 0⟩, ⟨2147483642, 0⟩])) (fun t => t.reg 3) = some 0#64 := by
  decide

/-! ## The sequencer -/

theorem test_step_idles : step (regs []) = .next (regs []) := rfl
-- P6, word 1
theorem test_step_illegal_word :
    seen (step ((regs []).pushWord 0x0600000000000001#64)) (fun t => (t.fault, t.cause, t.fcmd, t.chan))
      = some (true, 1#4, 0x0600000000000001#64, []) := by decide
-- P4, word 3: discarded
theorem test_step_discards_after_fault :
    seen (step (((regs []).raiseFault .noKey 0x5100000000000000#64).pushWord 0x0600000000000000#64))
      (fun t => (t.cc, t.fcmd, t.chan)) = some (0#64, 0x5100000000000000#64, []) := by decide
theorem test_fetch_word_runs_from_reset :
    seen (step (State.reset.withFetchWord 64 0x0410000000000001)) (fun t => (t.cc, t.fault)) = some (1#64, false) := by
  decide

/-! ## Witnesses: for each statement with hypotheses, a state and operands that meet them

Both ends of a range, and one witness for each clause, where a statement has several. -/

/-- A state with a key, a sequence of four canonical cells, three input bytes and two text bytes. -/
def busy : State :=
  withText (withByte (withSeq ((regs [(1, 3#64), (2, 0x500000007#64), (3, 4#64)]).setKeyed key2)
    [⟨0, 0⟩, ⟨1, 2147483646⟩, ⟨2147483646, 0⟩, ⟨5, 6⟩]) [0x41, 0x80, 0x7F]) [0x41, 0x7F]

theorem witness_ReducerGivesResidue :
    (0x3FFFFFFE00000004#64 : Word).toNat ≤ (Config.P - 1) ^ 2 ∧
      Config.P ≤ reduceRound (reduceRound (0xFFFFFFFFFFFFFFFF#64 : Word).toNat) := by decide +kernel
theorem witness_CanonicalElementsFormRing :
    isCanonical zeroElem = true ∧ isCanonical phiElem = true ∧ isCanonical ⟨2147483646, 2147483646⟩ = true := by decide
theorem witness_GeneratorPowersAreFibonacciPairs : 1 ≤ (1#64 : Word).toNat := by decide
theorem witness_GeneratorHasOrderTwoPow32 :
    (0 < (1#64 : Word).toNat ∧ (1#64 : Word).toNat < 2 ^ 32) ∧ (0xFFFFFFFF#64 : Word).toNat < 2 ^ 32 ∧
      (keyedOf 1#32).phik = (keyedOf 1#32).phik := by decide +kernel
theorem witness_NonzeroElementsHaveInversePowers :
    isCanonical phiElem = true ∧ phiElem ≠ zeroElem := by decide
theorem witness_RdsrReadsPlainRegisters :
    (0#32 : BitVec 32).toNat ≤ 8 ∧ (8#32 : BitVec 32).toNat ≤ 8 ∧ busy.mem.wf busy.cfg.cap.toNat = true := by decide
theorem witness_RdsrOfKeyedRegistersNeedsKey : busy.keyed = some key2 ∧ (regs []).keyed = none := by decide
theorem witness_RdsrOfChunkComputesOnce :
    chunkOk busy.cfg busy.chunk = true ∧ busy.chunk = none ∧ chunkOk busy.cfg busy.chunkInit.chunk = true ∧
      busy.chunkInit.chunk = some 65536#32 := by decide
theorem witness_NewMemoriesAreZeroFilled :
    ((regs [(1, 1024#64)]).reg 1).toNat ≤ cfg4.cap.toNat ∧ ((regs []).reg 1).toNat ≤ cfg4.cap.toNat ∧
      cfg4.cap.toNat < ((regs [(1, 1025#64)]).reg 1).toNat := by decide
theorem witness_LoadsReadOneCell :
    busy.mem.readSeq (busy.reg 1).toNat = some ⟨5, 6⟩ ∧ busy.mem.readByte (busy.reg 0).toNat = some 0x41 ∧
      busy.mem.readText (busy.reg 0).toNat = some 0x41 ∧ busy.mem.seq.length ≤ (busy.reg 3).toNat ∧
      busy.mem.byte.length ≤ (busy.reg 1).toNat ∧ busy.mem.text.length ≤ (busy.reg 1).toNat := by decide
theorem witness_SteStoresOneElement :
    busy.intView 1 < busy.mem.seq.length ∧ busy.mem.seq.length ≤ busy.intView 3 := by decide
theorem witness_StbStoresOneByte :
    busy.intView 0 < busy.mem.byte.length ∧ busy.mem.byte.length ≤ busy.intView 1 := by decide
theorem witness_ChunkSizeIsClamped : 1 ≤ 1 ∧ 1 ≤ 64 ∧ 64 ≤ 64 := by decide
theorem witness_ChunksPartitionIndices : 1 ≤ 1 ∧ [1] ∈ chunks 1 2 ∧ (chunks 2 3)[1]? = some [2] := by decide
theorem witness_LaneSchedulesAreUnobservable :
    1 ≤ 3 ∧ [3, 1, 0, 2].Perm (chunks 3 busy.mem.seq.length).flatten ∧ [0, 2, 1, 3].Perm [3, 1, 0, 2] ∧
      busy.keyed = some key2 := by decide
theorem witness_HaarNegatesOddCells : busy.mem.readSeq 0 = some ⟨0, 0⟩ ∧ busy.mem.readSeq 3 = some ⟨5, 6⟩ := by decide
theorem witness_HaarTwiceRestoresSequence : ∀ e ∈ busy.mem.seq, isCanonical e = true := by decide
theorem witness_PhiMultipliesEveryCell : busy.mem.readSeq 1 = some ⟨1, 2147483646⟩ := by decide
theorem witness_PhiRoundTripRestoresSequence : ∀ e ∈ busy.mem.seq, isCanonical e = true := by decide
theorem witness_TofreqTransformsInPlace :
    (busy.keyed = some key2 ∧ busy.mem.readSeq 3 = some ⟨5, 6⟩) ∧ (regs []).keyed = none := by decide
theorem witness_ProcEncodesInputBytes :
    (busy.keyed = some key2 ∧ busy.mem.readByte 2 = some 0x7F) ∧ (regs []).keyed = none := by decide
theorem witness_EditWritesPair :
    (0#32 : BitVec 32).toNat ≤ 63 ∧ (63#32 : BitVec 32).toNat ≤ 63 ∧
      (busy.keyed = some key2 ∧ Config.l0SelfPair = true) ∧ (regs []).keyed = none := by decide
theorem witness_EditedPairSumsToZero :
    1 ≤ (1#32 : BitVec 32).toNat ∧ (1#32 : BitVec 32).toNat ≤ 63 ∧ busy.keyed = some key2 ∧
      (busy.reg 0).toNat * 2 ^ (1#32 : BitVec 32).toNat + 2 ^ (1#32 : BitVec 32).toNat / 2
        < busy.mem.seq.length := by decide
/-- The largest level: its partner lies `2^62` cells away. -/
theorem witness_EditedPairSumsToZero_level_63 :
    ((withSeq busy (List.replicate (2 ^ 62 + 1) zeroElem)).reg 0).toNat * 2 ^ (63#32 : BitVec 32).toNat
        + 2 ^ (63#32 : BitVec 32).toNat / 2
      < (withSeq busy (List.replicate (2 ^ 62 + 1) zeroElem)).mem.seq.length := by
  have h : (withSeq busy (List.replicate (2 ^ 62 + 1) zeroElem)).reg 0 = 0#64 := by rfl
  have hl : (withSeq busy (List.replicate (2 ^ 62 + 1) zeroElem)).mem.seq.length = 2 ^ 62 + 1 := List.length_replicate
  rw [h, hl]
  decide
theorem witness_VerifyChecksEveryPair :
    2 ^ 1 ≤ [zeroElem, zeroElem].length ∧ 2 ^ 1 ∣ 0 ∧ [zeroElem, zeroElem][0]? = some zeroElem ∧
      [zeroElem, zeroElem][0 + 2 ^ 1 / 2]? = some zeroElem ∧ [zeroElem][0 + 2 ^ 0 / 2]? = some zeroElem := by decide
theorem witness_VerifyAcceptsZeroSequencesOnly :
    Config.l0SelfPair = true ∧ (∀ e ∈ (withSeq busy [zeroElem, zeroElem]).mem.seq, IsElem e 0 0) ∧
      ∃ e ∈ busy.mem.seq, ¬ IsElem e 0 0 := by
  refine ⟨rfl, fun e he => ?_, ⟨5, 6⟩, by decide, fun h => absurd h.1 (by decide)⟩
  have : e = zeroElem := by simpa [withSeq, Memory.replaceSeq, State.setMem] using he
  exact this ▸ ⟨rfl, rfl⟩
theorem witness_ReconDecodesSequence : busy.keyed = some key2 ∧ (regs []).keyed = none := by decide
theorem witness_ProcThenReconReturnsAsciiInput : busy.ok = true ∧ busy.kv = true := by decide +kernel
theorem witness_EncodingsOfDifferentInputsDiffer :
    ([0x41#8, 0x42#8] : List Byte).length = ([0x41#8, 0x43#8] : List Byte).length ∧
      ([0x41#8, 0x42#8] : List Byte) ≠ [0x41#8, 0x43#8] := by decide
/-- A command that completes, and one for each cause it can meet. -/
theorem witness_CommandsFaultExactlyByTable :
    (Instr.edit 1 2 63#32).wf = true ∧ faultDue (.edit 1 2 63#32) busy = none ∧
      faultDue .proc (regs []) = some .noKey ∧ faultDue (.rdsr 1 5#32) (regs []) = some .noKey ∧
      faultDue (.lde 1 3) busy = some .index ∧ faultDue (.newseq 1) (regs [(1, 1025#64)]) = some .length := by decide
theorem witness_StepRunsDecodedCommand :
    (busy.pushWord 0x0600000000000000#64).chan = 0x0600000000000000#64 :: [] ∧ busy.fault = false ∧
      decode 0x0600000000000000#64 = .command .nop := by decide
theorem witness_IllegalWordFaults :
    (busy.pushWord 0x0700000000000000#64).chan = 0x0700000000000000#64 :: [] ∧ busy.fault = false ∧
      decode 0x0700000000000000#64 = .illegal .undefinedOpcode := by decide
theorem witness_FaultsArePrecise :
    ∃ t, step ((regs []).pushWord 0x5200000000000000#64) = .next t ∧ t.fault = true := ⟨_, rfl, rfl⟩
theorem witness_FaultedBlockDiscardsWords : (busy.raiseFault .index 0x3113000000000000#64).fault = true := by decide
theorem witness_RunsEndRightOrWrong :
    ((busy.send 0x0600000000000000#64).send 0x0700000000000000#64).fault = false ∧ busy.fault = false := by decide
theorem witness_FlagsAndLengthsHaveFewWriters :
    (∃ t, exec .nop busy = .next t) ∧ ∃ t, exec (.newseq 1) busy = .next t := ⟨⟨_, rfl⟩, _, rfl⟩
theorem witness_ChunkSizeIsComputedOnce :
    (∃ t, exec .haar busy.chunkInit = .next t) ∧ busy.chunkInit.chunk = some 65536#32 ∧
      ∃ t, exec .nop busy = .next t := ⟨⟨_, rfl⟩, by decide, _, rfl⟩
theorem witness_OutputOnlyGrows :
    ∃ t, Host.Core.run core 1 (busy.pushWord 0x0502000000000000#64) = .next t ∧ t.out = [0x500000007#64] :=
  ⟨_, rfl, rfl⟩
theorem witness_StepKeepsStateOk :
    (busy.pushWord 0x0502000000000000#64).ok = true ∧ ∃ t, step (busy.pushWord 0x0502000000000000#64) = .next t :=
  ⟨by decide +kernel, _, rfl⟩
theorem witness_DecodeInvertsEncode : (Instr.rdsr 15 8#32).wf = true ∧ (Instr.edit 0 15 63#32).wf = true := by decide
theorem witness_EncodeInvertsDecode : decode 0x04F0000000000008#64 = .command (.rdsr 15 8#32) := by decide
theorem witness_DecodeAgreesWithMatchAndMask :
    decode 0x04F0000000000008#64 = .command (.rdsr 15 8#32) ∧
      (⟨"RDSR", 0x0400000000000000#64, 0xFF0FFFFFFFFFFFF0#64⟩ : MapRow) ∈ opcodeMap ∧
      MapRow.hits ⟨"RDSR", 0x0400000000000000#64, 0xFF0FFFFFFFFFFFF0#64⟩ 0x04F0000000000008#64 = true := by
  decide +kernel

end Sys2Proof.Tests
end

section
/-! SUPPORT. Elements of GF(P²) in Mathlib's quadratic algebra over the integers modulo `P`: multiplication, powers,
exponentiation, and the standing invariant of the keyed pair (41_field_ext.md R120 to R132, 43_frame.md R170). -/

namespace Sys2Proof.Proofs

open Sys2Proof.Machine Sys2Proof.Machine.Laws Sys2Proof.Config

/-- The ring `ℤ/P[x]` with `x² = x + 1` (41_field_ext.md R120). -/
abbrev Quad : Type := QuadraticAlgebra (ZMod P) 1 1

/-- The element as a member of the ring: `a + b·x`. -/
def toQuad (e : Elem) : Quad := ⟨(e.a.toNat : ZMod P), (e.b.toNat : ZMod P)⟩

@[simp] theorem toQuad_oneElem : toQuad oneElem = 1 := by
  ext <;> simp [toQuad, oneElem, QuadraticAlgebra.re_one, QuadraticAlgebra.im_one]

@[simp] theorem toQuad_mulx (u v : Elem) : toQuad (mulx u v) = toQuad u * toQuad v := by
  obtain ⟨ha, hb⟩ := mulx_toNat u v
  ext <;> simp [toQuad, ha, hb]

/-- Canonical elements are their members of the ring (41_field_ext.md R120). -/
theorem eq_of_toQuad_eq {u v : Elem} (hu : isCanonical u = true) (hv : isCanonical v = true)
    (h : toQuad u = toQuad v) : u = v := by
  obtain ⟨hua, hub⟩ := isCanonical_iff.1 hu
  obtain ⟨hva, hvb⟩ := isCanonical_iff.1 hv
  obtain ⟨ha, hb⟩ := QuadraticAlgebra.ext_iff.1 h
  rw [toQuad, toQuad, ZMod.natCast_eq_natCast_iff'] at ha hb
  refine elem_ext ?_ ?_
  · rwa [Nat.mod_eq_of_lt hua, Nat.mod_eq_of_lt hva] at ha
  · rwa [Nat.mod_eq_of_lt hub, Nat.mod_eq_of_lt hvb] at hb

/-! ### Exponentiation -/

/-- The loop multiplies into the accumulator the base raised to the `n` exponent bits from bit `i` on
(41_field_ext.md R129). -/
theorem toQuad_expLoop_acc (k n i : Nat) (r : ExpRun) :
    toQuad (expLoop k n i r).acc = toQuad r.acc * toQuad r.b ^ (k / 2 ^ i % 2 ^ n) := by
  induction n generalizing i r with
  | zero => simp [expLoop, Nat.mod_one]
  | succ n ih =>
    have hbits : k / 2 ^ i % 2 ^ (n + 1) = (k.testBit i).toNat + 2 * (k / 2 ^ (i + 1) % 2 ^ n) := by
      rw [Nat.toNat_testBit, pow_succ', Nat.mod_mul, Nat.div_div_eq_div_mul, ← pow_succ]
    rw [expLoop, ih, expIteration_eq, hbits]
    cases k.testBit i <;> simp [pow_add, pow_mul, sq, mul_assoc]

theorem lt_two_pow_bitLength (e : Nat) : e < 2 ^ bitLength e := by
  unfold bitLength
  split
  · simp [*]
  · exact Nat.lt_log2_self

/-- `expx` raises to the exponent modulo the group order (41_field_ext.md R129). -/
@[simp] theorem toQuad_expx (base : Elem) (e : Word) : toQuad (expx base e) = toQuad base ^ (e.toNat % N) := by
  have h := toQuad_expLoop_acc (e.toNat % N) (expIters e) 0 { acc := oneElem, b := base, iters := 0 }
  rw [pow_zero, Nat.div_one, Nat.mod_eq_of_lt (show _ < 2 ^ expIters e from lt_two_pow_bitLength _)] at h
  rwa [toQuad_oneElem, one_mul] at h

theorem expLoop_acc_canonical (k n i : Nat) {r : ExpRun} (h : isCanonical r.acc = true) :
    isCanonical (expLoop k n i r).acc = true := by
  induction n generalizing i r with
  | zero => exact h
  | succ n ih =>
    refine ih _ ?_
    rw [expIteration_eq]
    cases k.testBit i
    · exact h
    · exact isCanonical_mulx _ _

theorem isCanonical_expx (base : Elem) (e : Word) : isCanonical (expx base e) = true :=
  expLoop_acc_canonical _ _ _ isCanonical_one

theorem inverseExponent_toNat (e : Word) : (inverseExponent e).toNat = (N - e.toNat % N) % N := by
  have h : (N - e.toNat % N) % N < N := Nat.mod_lt _ (by decide)
  exact Nat.mod_eq_of_lt (h.trans (by decide))

/-- The generator to the power `2^32` is the identity (41_field_ext.md R132), run by the model's own loop. -/
theorem toQuad_phiElem_pow_two_pow_32 : toQuad phiElem ^ (2 ^ 32) = 1 := by
  have hrun : expx phiElem 0x100000000#64 = oneElem := by decide +kernel
  simpa [N] using (toQuad_expx phiElem 0x100000000#64).symm.trans (congrArg toQuad hrun)

theorem toQuad_phiElem_pow_N : toQuad phiElem ^ N = 1 := by
  rw [show N = 2 ^ 32 * (2 ^ 30 - 1) by decide, pow_mul, toQuad_phiElem_pow_two_pow_32, one_pow]

/-- The standing invariant of the keyed pair: `φᵏ · φ⁻ᵏ` is the identity (10_state.md R26, 41_field_ext.md R132). -/
theorem mulx_expx_expix_phiElem (e : Word) : mulx (expx phiElem e) (expix phiElem e) = oneElem := by
  refine eq_of_toQuad_eq (isCanonical_mulx _ _) isCanonical_one ?_
  have hlt : e.toNat % N < N := Nat.mod_lt _ (by decide)
  calc toQuad (mulx (expx phiElem e) (expix phiElem e))
      = toQuad phiElem ^ (e.toNat % N) * toQuad phiElem ^ (N - e.toNat % N) := by
        rw [toQuad_mulx, expix, toQuad_expx, toQuad_expx, inverseExponent_toNat, Nat.mod_mod,
          ← pow_eq_pow_mod (N - e.toNat % N) toQuad_phiElem_pow_N]
    _ = toQuad phiElem ^ N := by rw [← pow_add, Nat.add_sub_cancel' hlt.le]
    _ = toQuad oneElem := by rw [toQuad_phiElem_pow_N, toQuad_oneElem]

theorem keyedOk_some_iff {k : KeyedPair} : keyedOk (some k) = true ↔
    isCanonical k.phik = true ∧ isCanonical k.phink = true ∧ mulx k.phik k.phink = oneElem := by
  simp [keyedOk, and_assoc]

/-- The pair of every key meets the standing invariant (43_frame.md R170). -/
theorem keyedOf_ok (key : BitVec 32) : keyedOk (some (keyedOf key)) = true :=
  keyedOk_some_iff.2 ⟨isCanonical_expx _ _, isCanonical_expx _ _, mulx_expx_expix_phiElem _⟩

end Sys2Proof.Proofs
end

section
/-! SUPPORT. Everything a command can do to the state, command by command, and the facts of runs: the layer under the
statements about the whole state (10_state.md). -/

namespace Sys2Proof.Proofs

open Sys2Proof.Machine Sys2Proof.Machine.Laws Sys2Proof.Config

/-- What a completing command makes of the state, before `CC` advances. The arithmetic commands, the moves and the loads
share one case, the write of a general register. -/
inductive Effect (s : State) : Instr → State → Prop where
  | reg (i : Instr) (rd : Reg) (v : Word) : Effect s i (s.setReg rd v)
  | chunkRead (rd : Reg) (v : Word) : Effect s (.rdsr rd 7#32) (s.chunkInit.setReg rd v)
  | emit (rs1 : Reg) : Effect s (.out rs1) (s.emit (s.reg rs1))
  | nop : Effect s .nop s
  | keyld (rs1 : Reg) : Effect s (.keyld rs1) (s.setKeyed (keyedOf (s.keyView rs1)))
  | newseq (rs1 : Reg) (n : Nat) (hn : n ≤ s.cfg.cap.toNat) :
      Effect s (.newseq rs1) (s.setMem (s.mem.replaceSeq (List.replicate n zeroElem)))
  | newbuf (rs1 : Reg) (n : Nat) (hn : n ≤ s.cfg.cap.toNat) :
      Effect s (.newbuf rs1) (s.setMem (s.mem.replaceByte (List.replicate n 0#8)))
  | ste (rs1 rs2 : Reg) (m : Memory) (hm : s.mem.writeSeq (s.intView rs1) (s.elemView rs2) = some m) :
      Effect s (.ste rs1 rs2) (s.setMem m)
  | stb (rs1 rs2 : Reg) (m : Memory) (hm : s.mem.writeByte (s.intView rs1) (s.byteView rs2) = some m) :
      Effect s (.stb rs1 rs2) (s.setMem m)
  | haar : Effect s .haar (s.chunkInit.setMem (s.mem.replaceSeq (haarPass s.mem.seq)))
  | phi (rs1 : Reg) : Effect s (.phi rs1)
      ((s.chunkInit.setMem (s.mem.replaceSeq (phiPass s.mem.seq (s.elemView rs1)).1)).setNop
        (phiPass s.mem.seq (s.elemView rs1)).2)
  | tofreq (k : KeyedPair) : Effect s .tofreq (s.chunkInit.setMem (s.mem.replaceSeq (toFreq s.mem.seq k.phik)))
  | proc (k : KeyedPair) : Effect s .proc (s.chunkInit.setMem (s.mem.replaceSeq (processData s.mem.byte k.phik)))
  | edit (rs1 rs2 : Reg) (level : BitVec 32) (k : KeyedPair) : Effect s (.edit rs1 rs2 level)
      (s.setMem (s.mem.replaceSeq
        (editFrequency l0SelfPair s.mem.seq level.toNat (s.intView rs1) (s.elemView rs2) k.phik)))
  | recon (k : KeyedPair) : Effect s .recon (s.chunkInit.setMem (s.mem.replaceText (reconstruct s.mem.seq k.phink)))

/-- How the command `i` can end: it takes a fault, or has its effect and completes. -/
def Ends (s : State) (i : Instr) (t : State) : Prop :=
  (∃ c, t = s.raiseFault c (encode i)) ∨ ∃ u, Effect s i u ∧ t = u.complete

/-! ### The shared endings -/

theorem ends_of_faultOut {s t : State} {i : Instr} {c : FaultCause} (h : faultOut s c i = .next t) : Ends s i t :=
  .inl ⟨c, (faultOut_eq_next.1 h).symm⟩

theorem ends_of_retire {s t u : State} {i : Instr} (hu : Effect s i u) (h : retire u = .next t) : Ends s i t :=
  .inr ⟨u, hu, (retire_eq_next.1 h).symm⟩

theorem ends_of_writeBack {s t : State} {i : Instr} {rd : Reg} {v : Word} (h : writeBack s rd v = .next t) :
    Ends s i t :=
  ends_of_retire (.reg i rd v) h

theorem ends_of_orFault {α : Type} {o : Option α} {s t : State} {c : FaultCause} {i : Instr} {go : α → Result}
    (hgo : ∀ v, o = some v → go v = .next t → Ends s i t) (h : orFault o s c i go = .next t) : Ends s i t := by
  obtain ⟨v, hv, h⟩ | ⟨-, h⟩ := orFault_eq_next.1 h
  · exact hgo v hv h
  · exact .inl ⟨c, h.symm⟩

theorem lengthView_eq_some {s : State} {r : Reg} {n : Nat} (h : s.lengthView r = some n) :
    n ≤ s.cfg.cap.toNat := by
  unfold State.lengthView at h
  split at h
  · cases h
    assumption
  · cases h

theorem sysRegOf_eq_chunk {sr : BitVec 32} (h : sysRegOf sr = some .chunk) : sr = 7#32 := by
  unfold sysRegOf at h
  split at h <;> cases h
  exact BitVec.eq_of_toNat_eq ‹_›

theorem execRdsr_ends {rd : Reg} {sr : BitVec 32} {s t : State} (h : execRdsr rd sr s = .next t) :
    Ends s (.rdsr rd sr) t := by
  unfold execRdsr at h
  split at h
  case h_6 | h_7 => exact ends_of_orFault (fun k _ => ends_of_writeBack) h
  case h_8 hsr =>
    cases sysRegOf_eq_chunk hsr
    exact ends_of_retire (.chunkRead rd _) h
  case h_10 => exact ends_of_faultOut h
  all_goals exact ends_of_writeBack h

theorem execEdit_ends {rs1 rs2 : Reg} {level : BitVec 32} {s t : State}
    (h : execEdit rs1 rs2 level s = .next t) : Ends s (.edit rs1 rs2 level) t := by
  unfold execEdit at h
  split at h
  · exact ends_of_orFault (fun k _ => ends_of_retire (.edit rs1 rs2 level k)) h
  · exact ends_of_faultOut h

/-- Everything a command can do (60_exceptions.md R242). -/
theorem exec_ends {i : Instr} {s t : State} (h : exec i s = .next t) : Ends s i t := by
  cases i with
  | lil | lih | mov | red | addp | subp | mulp | chkirr | s2f | addx | subx | negx | mulx | expx | expix | verify =>
    exact ends_of_writeBack h
  | lde | ldb | ldt => exact ends_of_orFault (fun _ _ => ends_of_writeBack) h
  | rdsr rd sr => exact execRdsr_ends h
  | out rs1 => exact ends_of_retire (.emit rs1) h
  | nop => exact ends_of_retire .nop h
  | newseq rs1 => exact ends_of_orFault (fun n hn => ends_of_retire (.newseq rs1 n (lengthView_eq_some hn))) h
  | newbuf rs1 => exact ends_of_orFault (fun n hn => ends_of_retire (.newbuf rs1 n (lengthView_eq_some hn))) h
  | ste rs1 rs2 => exact ends_of_orFault (fun m hm => ends_of_retire (.ste rs1 rs2 m hm)) h
  | stb rs1 rs2 => exact ends_of_orFault (fun m hm => ends_of_retire (.stb rs1 rs2 m hm)) h
  | haar => exact ends_of_retire .haar h
  | phi rs1 => exact ends_of_retire (.phi rs1) h
  | keyld rs1 => exact ends_of_retire (.keyld rs1) h
  | tofreq => exact ends_of_orFault (fun k _ => ends_of_retire (.tofreq k)) h
  | proc => exact ends_of_orFault (fun k _ => ends_of_retire (.proc k)) h
  | edit rs1 rs2 level => exact execEdit_ends h
  | recon => exact ends_of_orFault (fun k _ => ends_of_retire (.recon k)) h

/-! ### The chunk size -/

/-- A held chunk size is reused (42_transform.md R151). -/
theorem chunkValue_of_chunk {s : State} {c : BitVec 32} (h : s.chunk = some c) : s.chunkValue = c := by
  simp [chunkValue_eq, h]

end Sys2Proof.Proofs
end

section
/-! PROOFS. The statements about the whole state: reset, the writers of each part, runs, and the invariant every step
keeps (10_state.md). -/

namespace Sys2Proof.Proofs

open Sys2Proof.Machine Sys2Proof.Machine.Laws Sys2Proof.Config

/-! ### The writers of each part of the state -/

section Writers

variable {i : Instr} {s u : State}

theorem effect_keyed (h : Effect s i u) (hi : ∀ rs1, i ≠ .keyld rs1) : u.keyed = s.keyed := by
  cases h with
  | keyld rs1 => exact absurd rfl (hi rs1)
  | _ => rfl

theorem effect_kv (h : Effect s i u) (hs : s.kv = true) : u.kv = true := by
  cases h with
  | keyld rs1 => rfl
  | _ => exact hs

theorem effect_nop (h : Effect s i u) (hi : ∀ rs1, i ≠ .phi rs1) : u.nop = s.nop := by
  cases h with
  | phi rs1 => exact absurd rfl (hi rs1)
  | _ => rfl

/-- The passes, `EDIT` and `STE` write cells of `SEQ` and keep `LEN`. -/
theorem effect_seq_length (h : Effect s i u) (hseq : ∀ rs1, i ≠ .newseq rs1) (hproc : i ≠ .proc) :
    u.mem.seq.length = s.mem.seq.length := by
  cases h with
  | newseq rs1 => exact absurd rfl (hseq rs1)
  | proc k => exact absurd rfl hproc
  | ste rs1 rs2 m hm =>
    obtain ⟨-, rfl⟩ := writeSeq_eq_some hm
    exact List.length_set
  | stb rs1 rs2 m hm =>
    obtain ⟨-, rfl⟩ := writeByte_eq_some hm
    rfl
  | haar => exact haarPass_length _
  | phi rs1 => exact phiPass_length _ _
  | tofreq k => exact toFreq_length _ _
  | edit rs1 rs2 level k => exact editFrequency_length _ _ _ _ _ _
  | _ => rfl

theorem effect_byte_length (h : Effect s i u) (hi : ∀ rs1, i ≠ .newbuf rs1) :
    u.mem.byte.length = s.mem.byte.length := by
  cases h with
  | newbuf rs1 => exact absurd rfl (hi rs1)
  | ste rs1 rs2 m hm =>
    obtain ⟨-, rfl⟩ := writeSeq_eq_some hm
    rfl
  | stb rs1 rs2 m hm =>
    obtain ⟨-, rfl⟩ := writeByte_eq_some hm
    exact List.length_set
  | _ => rfl

theorem effect_text (h : Effect s i u) (hi : i ≠ .recon) : u.mem.text = s.mem.text := by
  cases h with
  | recon k => exact absurd rfl hi
  | ste rs1 rs2 m hm =>
    obtain ⟨-, rfl⟩ := writeSeq_eq_some hm
    rfl
  | stb rs1 rs2 m hm =>
    obtain ⟨-, rfl⟩ := writeByte_eq_some hm
    rfl
  | _ => rfl

theorem effect_chunk_held (h : Effect s i u) {c : BitVec 32} (hc : s.chunk = some c) : u.chunk = some c := by
  cases h with
  | chunkRead | haar | phi | tofreq | proc | recon => exact congrArg some (chunkValue_of_chunk hc)
  | _ => exact hc

theorem effect_chunk (h : Effect s i u) (hhaar : i ≠ .haar) (hphi : ∀ rs1, i ≠ .phi rs1) (htofreq : i ≠ .tofreq)
    (hproc : i ≠ .proc) (hrecon : i ≠ .recon) (hrdsr : ∀ rd, i ≠ .rdsr rd 7#32) : u.chunk = s.chunk := by
  cases h with
  | chunkRead rd v => exact absurd rfl (hrdsr rd)
  | haar => exact absurd rfl hhaar
  | phi rs1 => exact absurd rfl (hphi rs1)
  | tofreq k => exact absurd rfl htofreq
  | proc k => exact absurd rfl hproc
  | recon k => exact absurd rfl hrecon
  | _ => rfl

theorem effect_out (h : Effect s i u) : s.out <+: u.out := by
  cases h with
  | emit rs1 => exact List.prefix_append _ _
  | _ => exact List.prefix_rfl

theorem effect_cfg (h : Effect s i u) : u.cfg = s.cfg := by
  cases h <;> rfl

/-- No completing command writes the fault record (10_state.md R29). -/
theorem effect_faultRecordOk (h : Effect s i u) : faultRecordOk u = faultRecordOk s := by
  cases h <;> rfl

end Writers

/-- Settles O51: the fault changes the record alone, and each completing command is met by its part's lemma. -/
theorem flagsAndLengthsHaveFewWriters : Obligations.FlagsAndLengthsHaveFewWriters := by
  intro i s t h
  obtain ⟨c, rfl⟩ | ⟨u, hu, rfl⟩ := exec_ends h
  · exact ⟨fun _ => rfl, fun _ => rfl, fun _ _ => rfl, fun _ => rfl, fun _ => rfl, id⟩
  · exact ⟨(effect_keyed hu :), (effect_nop hu :), (effect_seq_length hu :), (effect_byte_length hu :),
      (effect_text hu :), (effect_kv hu :)⟩

/-- Settles O52: `chunkInit` keeps a held value, and six commands alone call it. -/
theorem chunkSizeIsComputedOnce : Obligations.ChunkSizeIsComputedOnce := by
  intro i s t h
  obtain ⟨c, rfl⟩ | ⟨u, hu, rfl⟩ := exec_ends h
  · exact ⟨fun _ => id, fun _ _ _ _ _ _ => rfl⟩
  · exact ⟨fun _ => effect_chunk_held hu, (effect_chunk hu :)⟩

/-! ### Steps and runs -/

/-- Settles O46: the word is taken, no fault is held, and the verdict is the command. -/
theorem stepRunsDecodedCommand : Obligations.StepRunsDecodedCommand := by
  intro s w rest i hchan hfault hdec
  simp only [step, takeWord_cons hchan, hfault, hdec, Bool.false_eq_true, if_false]

/-- Everything a run of one step more can do: the step answers a next state, and the run goes on from there. -/
theorem run_succ_eq_next {n : Nat} {s t : State} : Host.Core.run core (n + 1) s = .next t ↔
    ∃ u, step s = .next u ∧ Host.Core.run core n u = .next t := by
  have hcore : core.step s = step s := rfl
  simp only [Host.Core.run, hcore]
  cases step s <;> simp

/-- A reflexive and transitive relation that every step respects holds along every run. -/
theorem run_of_step {R : State → State → Prop} (hrefl : ∀ s, R s s)
    (htrans : ∀ {s t u : State}, R s t → R t u → R s u) (hstep : ∀ {s t : State}, step s = .next t → R s t)
    (n : Nat) {s t : State} (h : Host.Core.run core n s = .next t) : R s t := by
  induction n generalizing s with
  | zero =>
    cases h
    exact hrefl _
  | succ n ih =>
    obtain ⟨u, hu, h⟩ := run_succ_eq_next.1 h
    exact htrans (hstep hu) (ih h)

/-- What a run keeps: the output so far stands at the start of the later one, and the parameters are the same. -/
def OutputExtends (s t : State) : Prop := s.out <+: t.out ∧ t.cfg = s.cfg

theorem OutputExtends.trans {s t u : State} (hst : OutputExtends s t) (htu : OutputExtends t u) :
    OutputExtends s u :=
  ⟨hst.1.trans htu.1, htu.2.trans hst.2⟩

theorem step_outputExtends {s t : State} (h : step s = .next t) : OutputExtends s t := by
  obtain ⟨-, rfl⟩ | ⟨w, rest, -, -, rfl⟩ | ⟨w, rest, why, -, -, -, rfl⟩ | ⟨w, rest, i, -, -, -, h⟩ := step_eq_next h
  case inr.inr.inr =>
    obtain ⟨c, rfl⟩ | ⟨u, hu, rfl⟩ := exec_ends h
    · exact ⟨List.prefix_rfl, rfl⟩
    · exact ⟨(effect_out hu :), (effect_cfg hu :)⟩
  all_goals exact ⟨List.prefix_rfl, rfl⟩

/-- Settles O53, by induction on the number of steps. -/
theorem outputOnlyGrows : Obligations.OutputOnlyGrows := fun n _ _ h =>
  run_of_step (R := OutputExtends) (fun _ => ⟨List.prefix_rfl, rfl⟩) OutputExtends.trans step_outputExtends n h

/-! ### The invariant -/

theorem ok_iff {s : State} : s.ok = true ↔ s.mem.wf s.cfg.cap.toNat = true ∧ keyedOk s.keyed = true ∧
    chunkOk s.cfg s.chunk = true ∧ faultRecordOk s = true := by
  simp [State.ok, and_assoc]

theorem chunkOk_chunkValue {s : State} (h : chunkOk s.cfg s.chunk = true) :
    chunkOk s.cfg (some s.chunkValue) = true := by
  rw [chunkValue_eq]
  cases hc : s.chunk with
  | none => simp [chunkOk]
  | some c => simpa [hc] using h

/-- Every code of a fault is from 1 to 4 (60_exceptions.md R231). -/
theorem code_range (c : FaultCause) : 1 ≤ c.code.toNat ∧ c.code.toNat ≤ 4 := by
  cases c <;> decide

theorem raiseFault_ok {s : State} {c : FaultCause} {w : Word} (h : s.ok = true) : (s.raiseFault c w).ok = true := by
  obtain ⟨hmem, hkeyed, hchunk, -⟩ := ok_iff.1 h
  exact ok_iff.2 ⟨hmem, hkeyed, hchunk, by simp [faultRecordOk, code_range]⟩

section Keeps

variable {i : Instr} {s u : State}

/-- Lengths stay at most `CAP` and cells in range: each memory is refilled within `CAP`, mapped cell by cell, or written
at one cell (10_state.md R27, R32). -/
theorem effect_mem_wf (h : Effect s i u) (hwf : s.mem.wf s.cfg.cap.toNat = true) :
    u.mem.wf s.cfg.cap.toNat = true := by
  obtain ⟨hseq, hbyte, -, hcells, -⟩ := wf_iff.1 hwf
  cases h with
  | newseq rs1 n hn =>
    refine replaceSeq_wf hwf (by simpa using hn) fun e he => ?_
    rw [List.eq_of_mem_replicate he]
    exact isCanonical_zero
  | newbuf rs1 n hn => exact replaceByte_wf hwf (by simpa using hn)
  | ste rs1 rs2 m hm => exact writeSeq_wf hwf (isCanonical_elemOf _) hm
  | stb rs1 rs2 m hm => exact writeByte_wf hwf hm
  | haar => exact replaceSeq_wf hwf (by simpa using hseq) (haarPass_canonical hcells)
  | phi rs1 => exact replaceSeq_wf hwf (by simpa using hseq) (phiPass_canonical _ _)
  | tofreq k => exact replaceSeq_wf hwf (by simpa using hseq) (toFreq_canonical _ _)
  | proc k => exact replaceSeq_wf hwf (by simpa using hbyte) (processData_canonical _ _)
  | edit rs1 rs2 level k => exact replaceSeq_wf hwf (by simpa using hseq) (editFrequency_canonical hcells)
  | recon k => exact replaceText_wf hwf ((reconstruct_length_le _ _).trans hseq) (reconstruct_lt _ _)
  | reg | chunkRead | emit | nop | keyld => exact hwf

/-- `KEYLD` alone writes the pair, and every key's pair meets the standing invariant (10_state.md R26). -/
theorem effect_keyedOk (h : Effect s i u) (hok : keyedOk s.keyed = true) : keyedOk u.keyed = true := by
  cases h with
  | keyld rs1 => exact keyedOf_ok _
  | _ => exact hok

theorem effect_chunkOk (h : Effect s i u) (hok : chunkOk s.cfg s.chunk = true) : chunkOk s.cfg u.chunk = true := by
  cases h with
  | chunkRead | haar | phi | tofreq | proc | recon => exact chunkOk_chunkValue hok
  | _ => exact hok

theorem effect_ok (h : Effect s i u) (hok : s.ok = true) : u.ok = true := by
  obtain ⟨hmem, hkeyed, hchunk, hfault⟩ := ok_iff.1 hok
  rw [ok_iff, effect_cfg h, effect_faultRecordOk h]
  exact ⟨effect_mem_wf h hmem, effect_keyedOk h hkeyed, effect_chunkOk h hchunk, hfault⟩

end Keeps

theorem exec_ok {i : Instr} {s t : State} (hok : s.ok = true) (h : exec i s = .next t) : t.ok = true := by
  obtain ⟨c, rfl⟩ | ⟨u, hu, rfl⟩ := exec_ends h
  · exact raiseFault_ok hok
  · exact (effect_ok hu hok :)

/-- Settles O54: idle and discarded words leave every part the invariant speaks of, a fault writes a code from 1 to 4,
and every command keeps each part. -/
theorem stepKeepsStateOk : Obligations.StepKeepsStateOk := by
  intro s t hok h
  obtain ⟨-, rfl⟩ | ⟨w, rest, -, -, rfl⟩ | ⟨w, rest, why, -, -, -, rfl⟩ | ⟨w, rest, i, -, -, -, h⟩ := step_eq_next h
  · exact hok
  · exact hok
  · exact raiseFault_ok (s := { s with chan := rest }) hok
  · exact exec_ok (s := { s with chan := rest }) hok h

/-! ### Reset -/

/-- Settles O55: the memories are empty, nothing is held and no fault is recorded. -/
theorem resetStateIsOk : Obligations.ResetStateIsOk :=
  ok_iff.2 ⟨reset_mem_wf _ _, rfl, rfl, rfl⟩

/-- Settles O56: every part is read off the state after reset. -/
theorem resetGivesInitialValues : Obligations.ResetGivesInitialValues :=
  ⟨resetWith_reg _, rfl, rfl, rfl, rfl, rfl, rfl, rfl, rfl, rfl, fun _ => ⟨rfl, rfl, rfl⟩, rfl, rfl, rfl, rfl, rfl,
    fun _ => rfl⟩

end Sys2Proof.Proofs
end

section
/-! SUPPORT. The rows of the opcode map: what a row builds, when it accepts the fields of a word, and its match and mask
(30_encoding.md R71 to R75, R79). -/

namespace Sys2Proof.Proofs

open Sys2Proof.Laws

/-! ### What a row builds -/

/-- The opcodes are distinct, so a row is found under its own (30_encoding.md R74). -/
theorem rowOf_opcode {r : OpRow} (hr : r ∈ opTable) : rowOf r.opcode = some r := by
  fin_cases hr <;> rfl

/-- The fields of the word of a row's command: the operands in the fields the row uses, and 0 elsewhere
(30_encoding.md R72). -/
def rowFields (r : OpRow) (rd rs1 rs2 : Reg) (imm : BitVec 32) : Fields where
  opcode := r.opcode
  rd := if r.rd then regField rd else 0#4
  rs1 := if r.rs1 then regField rs1 else 0#4
  rs2 := if r.rs2 then regField rs2 else 0#4
  zero := 0#12
  imm := if r.imm = .unused then 0#32 else imm

theorem build_fields {r : OpRow} (hr : r ∈ opTable) (rd rs1 rs2 : Reg) (imm : BitVec 32) :
    (r.build rd rs1 rs2 imm).fields = rowFields r rd rs1 rs2 imm := by
  fin_cases hr <;> rfl

/-- The two limits of well-formedness are the row's own limits on `imm32` (30_encoding.md R73). -/
theorem build_wf_iff {r : OpRow} (hr : r ∈ opTable) (rd rs1 rs2 : Reg) (imm : BitVec 32) :
    (r.build rd rs1 rs2 imm).wf = true ↔ r.immProblem (rowFields r rd rs1 rs2 imm).imm = none := by
  fin_cases hr <;> simp [rowFields, OpRow.immProblem, Instr.wf]

/-- Every command is built by a row, from the operands that stand in its own fields. -/
theorem exists_row_build (i : Instr) : ∃ r ∈ opTable,
    i = r.build (regOf i.fields.rd) (regOf i.fields.rs1) (regOf i.fields.rs2) i.fields.imm := by
  have hrow : ∃ r, rowOf i.fields.opcode = some r ∧
      i = r.build (regOf i.fields.rd) (regOf i.fields.rs1) (regOf i.fields.rs2) i.fields.imm := by
    cases i <;> exact ⟨_, rfl, by simp [Instr.fields]⟩
  obtain ⟨r, hr, hi⟩ := hrow
  exact ⟨r, (rowOf_eq_some hr).1, hi⟩

/-! ### When a row accepts a word -/

/-- The word with the fields `f` is a command of the row `r` (30_encoding.md R72, R75). -/
structure Accepts (r : OpRow) (f : Fields) : Prop where
  opcode : f.opcode = r.opcode
  zero : f.zero = 0#12
  registers : r.registersOk f = true
  imm : r.immProblem f.imm = none

theorem registersOk_iff {r : OpRow} {f : Fields} : r.registersOk f = true ↔
    (r.rd = false → f.rd = 0#4) ∧ (r.rs1 = false → f.rs1 = 0#4) ∧ (r.rs2 = false → f.rs2 = 0#4) := by
  simp only [OpRow.registersOk, Bool.and_eq_true, Bool.or_eq_true, beq_iff_eq, and_assoc, ← Bool.not_eq_true,
    Classical.or_iff_not_imp_left]

/-- Decoding, row by row (30_encoding.md R79). -/
theorem decode_eq_command_iff {w : Word} {i : Instr} : decode w = .command i ↔
    ∃ r ∈ opTable, Accepts r (fieldsOf w) ∧
      i = r.build (regOf (fieldsOf w).rd) (regOf (fieldsOf w).rs1) (regOf (fieldsOf w).rs2) (fieldsOf w).imm := by
  rw [decode_eq_command]
  constructor
  · rintro ⟨r, hrow, hverdict⟩
    obtain ⟨hr, hopcode⟩ := rowOf_eq_some hrow
    obtain ⟨hzero, hregs, himm, hi⟩ := verdict_eq_command.1 hverdict
    exact ⟨r, hr, ⟨hopcode.symm, hzero, hregs, himm⟩, hi⟩
  · rintro ⟨r, hr, ⟨hopcode, hzero, hregs, himm⟩, hi⟩
    exact ⟨r, hopcode ▸ rowOf_opcode hr, verdict_eq_command.2 ⟨hzero, hregs, himm, hi⟩⟩

/-- A row accepts the fields of its commands exactly when the immediate is legal. -/
theorem accepts_rowFields {r : OpRow} {rd rs1 rs2 : Reg} {imm : BitVec 32}
    (himm : r.immProblem (rowFields r rd rs1 rs2 imm).imm = none) : Accepts r (rowFields r rd rs1 rs2 imm) where
  opcode := rfl
  zero := rfl
  registers := by simp +contextual [registersOk_iff, rowFields]
  imm := himm

/-- Accepted fields are the fields of the row's command on the operands they hold: nothing stands in an unused field. -/
theorem rowFields_of_accepts {r : OpRow} {f : Fields} (h : Accepts r f) :
    rowFields r (regOf f.rd) (regOf f.rs1) (regOf f.rs2) f.imm = f := by
  obtain ⟨hrd, hrs1, hrs2⟩ := registersOk_iff.1 h.registers
  have himm : r.imm = .unused → f.imm = 0#32 := fun hu => by simpa [OpRow.immProblem, hu] using h.imm
  have hreg (used : Bool) (v : BitVec 4) (hv : used = false → v = 0#4) :
      (if used then regField (regOf v) else 0#4) = v := by
    cases used <;> simp_all
  obtain ⟨opcode, rd, rs1, rs2, zero, imm⟩ := f
  simp only [rowFields, hreg _ _ hrd, hreg _ _ hrs1, hreg _ _ hrs2, Fields.mk.injEq, true_and]
  refine ⟨h.opcode.symm, h.zero.symm, ?_⟩
  split
  · exact (himm ‹_›).symm
  · rfl

/-! ### Match and mask -/

/-- The mask on a register field: none of its bits where the field is used, all of them where it is not. -/
def regMask (used : Bool) : BitVec 4 := if used then 0#4 else BitVec.allOnes 4

/-- The mask on `imm32`: the bits that must be 0. The limit 63 of a level is one of bits, and the limit 8 of a system
register is 15 as far as bits go (30_encoding.md R74). -/
def immMask : ImmUse → BitVec 32
  | .unused => BitVec.allOnes 32
  | .const => 0#32
  | .sysReg => BitVec.allOnes 32 <<< 4
  | .level => BitVec.allOnes 32 <<< 6

/-- Match and mask of a row, from what the row says of each field. -/
def mapRowOf (r : OpRow) : MapRow where
  mnemonic := r.mnemonic
  matchBits := wordOf ⟨r.opcode, 0#4, 0#4, 0#4, 0#12, 0#32⟩
  mask := wordOf ⟨BitVec.allOnes 8, regMask r.rd, regMask r.rs1, regMask r.rs2, BitVec.allOnes 12, immMask r.imm⟩

/-- The printed match and mask of every row are those of its fields (30_encoding.md R74). -/
theorem opcodeMap_eq : opcodeMap = opTable.map mapRowOf := by decide

theorem mnemonic_eq_rdsr_iff {r : OpRow} (hr : r ∈ opTable) : r.mnemonic = "RDSR" ↔ r.imm = .sysReg := by
  fin_cases hr <;> decide

theorem wordOf_inj {f g : Fields} : wordOf f = wordOf g ↔ f = g :=
  ⟨fun h => by simpa using congrArg fieldsOf h, congrArg wordOf⟩

/-- Masking a word masks each field. -/
theorem wordOf_and (f g : Fields) : wordOf f &&& wordOf g =
    wordOf ⟨f.opcode &&& g.opcode, f.rd &&& g.rd, f.rs1 &&& g.rs1, f.rs2 &&& g.rs2, f.zero &&& g.zero,
      f.imm &&& g.imm⟩ := by
  refine BitVec.and_append.trans ?_
  simp only [wordOf, BitVec.and_append]

theorem and_regMask_eq_zero_iff {used : Bool} {v : BitVec 4} :
    v &&& regMask used = 0#4 ↔ (used = false → v = 0#4) := by
  cases used with
  | false => simp only [regMask, Bool.false_eq_true, if_false, BitVec.and_allOnes, forall_const]
  | true => simp [regMask]

/-- The bits from bit `k` on are 0 exactly below `2^k`. -/
theorem and_allOnes_shiftLeft_eq_zero_iff {n : Nat} (k : Nat) {v : BitVec n} :
    v &&& BitVec.allOnes n <<< k = 0#n ↔ v.toNat < 2 ^ k := by
  have hlt : v.toNat / 2 ^ k * 2 ^ k < 2 ^ n := (Nat.div_mul_le_self _ _).trans_lt v.isLt
  rw [← BitVec.shiftLeft_ushiftRight, ← BitVec.toNat_inj, BitVec.toNat_shiftLeft, BitVec.toNat_ushiftRight,
    Nat.shiftRight_eq_div_pow, Nat.shiftLeft_eq, Nat.mod_eq_of_lt hlt]
  simp [Nat.div_eq_zero_iff]

/-- The mask and, for `RDSR`, the limit 8 say of `imm32` what the row says of it (30_encoding.md R73, R74). -/
theorem immProblem_eq_none_iff {r : OpRow} {imm : BitVec 32} : r.immProblem imm = none ↔
    imm &&& immMask r.imm = 0#32 ∧ (r.imm = .sysReg → imm.toNat ≤ 8) := by
  have hite (p : Prop) [Decidable p] (why : IllegalReason) : (if p then none else some why) = none ↔ p := by simp
  unfold OpRow.immProblem
  cases r.imm with
  | unused => simp only [hite, immMask, BitVec.and_allOnes, reduceCtorEq, false_imp_iff, and_true]
  | const => simp [immMask]
  | sysReg =>
    have hlimit : sysRegLimit = 8 := rfl
    simp only [hite, immMask, and_allOnes_shiftLeft_eq_zero_iff, true_imp_iff]
    omega
  | level =>
    have hlimit : levelLimit = 63 := rfl
    simp only [hite, immMask, and_allOnes_shiftLeft_eq_zero_iff, reduceCtorEq, false_imp_iff, and_true]
    omega

/-- A word meets a row's match and mask exactly when the row accepts its fields (30_encoding.md R74). -/
theorem hits_mapRowOf_iff {r : OpRow} (hr : r ∈ opTable) (w : Word) :
    (mapRowOf r).hits w = true ↔ Accepts r (fieldsOf w) := by
  have hmask : w &&& (mapRowOf r).mask = (mapRowOf r).matchBits ↔
      (fieldsOf w).opcode = r.opcode ∧ r.registersOk (fieldsOf w) = true ∧ (fieldsOf w).zero = 0#12 ∧
        (fieldsOf w).imm &&& immMask r.imm = 0#32 := by
    rw [← wordOf_fieldsOf w, fieldsOf_wordOf, mapRowOf, wordOf_and, wordOf_inj, registersOk_iff]
    simp only [Fields.mk.injEq, BitVec.and_allOnes, and_regMask_eq_zero_iff, and_assoc]
  have hlimit : (mapRowOf r).mnemonic = "RDSR" ↔ r.imm = .sysReg := mnemonic_eq_rdsr_iff hr
  have himm : w.extractLsb' 0 32 = (fieldsOf w).imm := rfl
  simp only [MapRow.hits, Bool.and_eq_true, Bool.or_eq_true, bne_iff_ne, beq_iff_eq, decide_eq_true_eq, hmask, hlimit,
    himm, ne_eq, ← imp_iff_not_or]
  constructor
  · rintro ⟨⟨hopcode, hregs, hzero, hbits⟩, hle⟩
    exact ⟨hopcode, hzero, hregs, immProblem_eq_none_iff.2 ⟨hbits, hle⟩⟩
  · rintro ⟨hopcode, hzero, hregs, hi⟩
    obtain ⟨hbits, hle⟩ := immProblem_eq_none_iff.1 hi
    exact ⟨⟨hopcode, hregs, hzero, hbits⟩, hle⟩

end Sys2Proof.Proofs
end

section
/-! PROOFS. The statements about the encoding: decoder and encoder, match and mask, illegal words, pseudo-commands
(30_encoding.md). -/

namespace Sys2Proof.Proofs

open Sys2Proof.Machine Sys2Proof.Machine.Laws Sys2Proof.Laws Sys2Proof.Config

/-! ### Decoder and encoder -/

/-- Settles O57: the row that builds the command accepts the fields of its word, and builds the command again. -/
theorem decodeInvertsEncode : Obligations.DecodeInvertsEncode := by
  intro i hwf
  obtain ⟨r, hr, hi⟩ := exists_row_build i
  have hfields := build_fields hr (regOf i.fields.rd) (regOf i.fields.rs1) (regOf i.fields.rs2) i.fields.imm
  rw [hi, build_wf_iff hr] at hwf
  have hacc := accepts_rowFields hwf
  rw [← hfields, ← hi] at hacc
  rw [decode_eq_command_iff, fieldsOf_encode]
  exact ⟨r, hr, hacc, hi⟩

/-- Settles O58: accepted fields are those of the command built from them, and a word is the word of its fields. -/
theorem encodeInvertsDecode : Obligations.EncodeInvertsDecode := by
  intro w i h
  obtain ⟨r, hr, hacc, rfl⟩ := decode_eq_command_iff.1 h
  constructor
  · rw [build_wf_iff hr, rowFields_of_accepts hacc]
    exact hacc.imm
  · rw [encode, build_fields hr, rowFields_of_accepts hacc, wordOf_fieldsOf]

/-! ### Match and mask -/

theorem mnemonicOf_build {r : OpRow} (hr : r ∈ opTable) (rd rs1 rs2 : Reg) (imm : BitVec 32) :
    mnemonicOf (r.build rd rs1 rs2 imm) = r.mnemonic := by
  have hrow : rowOf (rowFields r rd rs1 rs2 imm).opcode = some r := rowOf_opcode hr
  simp only [mnemonicOf, build_fields hr, hrow]

/-- At most one row accepts a word: its opcode names the row. -/
theorem accepts_unique {r q : OpRow} {f : Fields} (hr : r ∈ opTable) (hq : q ∈ opTable) (hrf : Accepts r f)
    (hqf : Accepts q f) : r = q := by
  have h := rowOf_opcode hr
  rw [← hrf.opcode, hqf.opcode, rowOf_opcode hq] at h
  exact (Option.some.inj h).symm

/-- Settles O59: both forms say that a row accepts the word, and at most one row does. -/
theorem decodeAgreesWithMatchAndMask : Obligations.DecodeAgreesWithMatchAndMask := by
  constructor
  · intro w
    simp only [decode_eq_command_iff, opcodeMap_eq, List.mem_map, exists_exists_and_eq_and]
    constructor
    · rintro ⟨i, r, hr, hacc, -⟩
      exact ⟨r, hr, (hits_mapRowOf_iff hr w).2 hacc⟩
    · rintro ⟨r, hr, hhits⟩
      exact ⟨_, r, hr, (hits_mapRowOf_iff hr w).1 hhits, rfl⟩
  · intro w i m hdec hm hhits
    obtain ⟨r, hr, hacc, rfl⟩ := decode_eq_command_iff.1 hdec
    rw [opcodeMap_eq] at hm
    obtain ⟨q, hq, rfl⟩ := List.mem_map.1 hm
    obtain rfl := accepts_unique hr hq hacc ((hits_mapRowOf_iff hq w).1 hhits)
    exact (mnemonicOf_build hr _ _ _ _).symm

/-- Settles O60: each word is the word of its command, which is well formed. -/
theorem writtenWordsDecode : Obligations.WrittenWordsDecode :=
  ⟨decodeInvertsEncode (.lil 1 0xDEADBEEF#32) rfl, decodeInvertsEncode (.addp 3 1 2) rfl,
    decodeInvertsEncode (.expx 3 1 2) rfl, decodeInvertsEncode (.ste 15 15) rfl, decodeInvertsEncode (.phi 2) rfl,
    decodeInvertsEncode (.edit 1 2 63#32) rfl⟩

/-! ### Illegal words -/

/-- Settles O47: the word is taken, no fault is held, and the verdict is illegal before any state is read. -/
theorem illegalWordFaults : Obligations.IllegalWordFaults := by
  intro s w rest why hchan hfault hdec
  refine ⟨({ s with chan := rest } : State).raiseFault .illegal w, ?_, rfl⟩
  simp only [step, takeWord_cons hchan, hfault, hdec, Bool.false_eq_true, if_false]

/-! ### Pseudo-commands -/

/-- `LIL` of one half, then `LIH` of the other: the register holds both, and `CC` counts two commands
(44_data_movement.md R201, R202). -/
theorem execAll_lil_lih (rd : Reg) (a b : BitVec 32) (s : State) :
    ∃ t, execAll [.lil rd a, .lih rd b] s = .next t ∧ SameRegsExcept rd s t ∧ t.reg rd = b ++ a ∧
      t.cc = s.cc + 2#64 := by
  have hlow : (a.setWidth 64).extractLsb' 0 32 = a := by
    apply BitVec.eq_of_toNat_eq
    simpa using a.isLt
  refine ⟨_, rfl, fun r hr => ?_, ?_, ?_⟩
  · simp [hr]
  · simp [hlow]
  · simp [BitVec.add_assoc]

/-- Each half of the word `b ++ a` is reduced on its own (10_state.md R23). -/
theorem elemView_of_reg_eq_append {t : State} {rd : Reg} {a b : BitVec 32} (h : t.reg rd = b ++ a) :
    IsElem (t.elemView rd) (a.toNat % P) (b.toNat % P) := by
  have hreduce (v : BitVec 32) : (reduce (v.setWidth 64)).toNat = v.toNat % P := by
    rw [reduce_toNat, BitVec.toNat_setWidth_of_le (by decide)]
  rw [State.elemView, h]
  constructor
  · rw [elemOf, BitVec.extractLsb'_append_eq_right, hreduce]
  · rw [elemOf, BitVec.extractLsb'_append_eq_left, hreduce]

/-- Settles O18: both pseudo-commands are `LIL` then `LIH`, and a word is its high half before its low half. -/
theorem pseudoCommandsBuildConstants : Obligations.PseudoCommandsBuildConstants := by
  intro rd v a b s
  have hv : v.extractLsb' 32 32 ++ v.extractLsb' 0 32 = v :=
    BitVec.extractLsb'_append_extractLsb' ..
  have hli := execAll_lil_lih rd (v.extractLsb' 0 32) (v.extractLsb' 32 32) s
  rw [hv] at hli
  obtain ⟨t, hrun, hregs, hrd, hcc⟩ := execAll_lil_lih rd a b s
  exact ⟨rfl, rfl, hli, t, hrun, hregs, hrd, hcc, elemView_of_reg_eq_append hrd⟩

end Sys2Proof.Proofs
end

section
/-! SUPPORT. The rounds of the reducer as residues and bounds, the loop of the self-check as a power modulo `P`, and the
commands that end in the write of one register (10_state.md R23, R24, 40_field_scalar.md R101 to R107). -/

namespace Sys2Proof.Proofs

open Sys2Proof.Machine Sys2Proof.Machine.Laws Sys2Proof.Config

/-! ### The write of one register -/

/-- A write of one register and the advance of `CC` leave the rest of the state as it was (10_state.md R24). -/
theorem onlyReg_setReg_complete (s : State) (rd : Reg) (v : Word) : OnlyReg rd s (s.setReg rd v).complete :=
  ⟨⟨rfl, rfl, rfl, rfl, rfl, rfl⟩, fun _ hr => reg_setReg_other s v hr, rfl, rfl, rfl,
    ⟨⟨rfl, fun _ => rfl⟩, ⟨rfl, fun _ => rfl⟩, rfl, fun _ => rfl⟩, rfl⟩

/-- A command that ends in a write-back completes, writes its value to `rd`, and writes nothing else. -/
theorem writeBack_onlyReg (s : State) (rd : Reg) (v : Word) :
    ∃ t, writeBack s rd v = .next t ∧ OnlyReg rd s t ∧ t.reg rd = v :=
  ⟨_, rfl, onlyReg_setReg_complete s rd v, reg_setReg_same s rd v⟩

/-- A scalar result is zero-extended: the register holds the scalar's own number (10_state.md R23). -/
@[simp] theorem scalarWord_toNat (a : Scalar) : (scalarWord a).toNat = a.toNat :=
  BitVec.toNat_setWidth_of_le (by decide)

/-- A command that writes back a scalar completes and writes the scalar's number to `rd`, and nothing else. -/
theorem writeBack_scalarWord_onlyReg {s : State} {rd : Reg} {a : Scalar} {n : Nat} (h : a.toNat = n) :
    ∃ t, writeBack s rd (scalarWord a) = .next t ∧ OnlyReg rd s t ∧ (t.reg rd).toNat = n := by
  obtain ⟨t, hrun, hframe, hrd⟩ := writeBack_onlyReg s rd (scalarWord a)
  exact ⟨t, hrun, hframe, by rw [hrd, scalarWord_toNat, h]⟩

/-- The scalar view of a register is the residue of all its 64 bits (10_state.md R23). -/
@[simp] theorem scalView_toNat (s : State) (r : Reg) : (s.scalView r).toNat = (s.reg r).toNat % P := reduce_toNat _

theorem scalView_lt (s : State) (r : Reg) : (s.scalView r).toNat < P := reduce_lt _

/-! ### The rounds of the reducer -/

/-- A round keeps the residue, since `2^31` is 1 modulo `P` (40_field_scalar.md R102). -/
theorem reduceRound_mod (x : Nat) : reduceRound x % P = x % P := by
  rw [reduceRound_eq]
  simp only [P]
  omega

/-- The low 31 bits are at most `P`. -/
theorem reduceRound_le (x : Nat) : reduceRound x ≤ x / 2147483648 + P := by
  rw [reduceRound_eq]
  simp only [P]
  omega

/-- The first round of a 64-bit word (40_field_scalar.md R102). -/
theorem reduceRound_word_le (x : Word) : reduceRound x.toNat ≤ 2 ^ 33 + 2 ^ 31 - 2 := by
  have hx := x.isLt
  have h := reduceRound_le x.toNat
  simp only [P] at h
  omega

/-- The second round of a 64-bit word (40_field_scalar.md R102). -/
theorem reduceRound_reduceRound_word_le (x : Word) : reduceRound (reduceRound x.toNat) ≤ P + 4 := by
  have h₁ := reduceRound_word_le x
  have h₂ := reduceRound_le (reduceRound x.toNat)
  omega

/-- Where `P` is subtracted, what is left is what the second round has above `P` (40_field_scalar.md R102). -/
theorem reduce_le_of_le_reduceRound {x : Word} (h : P ≤ reduceRound (reduceRound x.toNat)) :
    (reduce x).toNat ≤ 4 := by
  have hle := reduceRound_reduceRound_word_le x
  rw [reduce_toNat, ← reduceRound_mod x.toNat, ← reduceRound_mod (reduceRound x.toNat), Nat.mod_eq_sub_mod h]
  exact (Nat.mod_le _ _).trans (by omega)

/-- The first round of a product of two scalars (40_field_scalar.md R102). -/
theorem reduceRound_lt_of_le_sq {x : Nat} (h : x ≤ (P - 1) ^ 2) : reduceRound x < 2 ^ 32 := by
  have hle := reduceRound_le x
  simp only [P] at h hle
  omega

/-- The second round, after a first below `2^32` (40_field_scalar.md R102). -/
theorem reduceRound_le_of_lt {r : Nat} (h : r < 2 ^ 32) : reduceRound r ≤ P + 1 := by
  have hle := reduceRound_le r
  omega

/-! ### The self-check -/

/-- The lowest of the `n + 1` bits of `e` from bit `i` on, and the `n` bits above it. -/
theorem div_two_pow_mod_two_pow_succ (e i n : Nat) :
    e / 2 ^ i % 2 ^ (n + 1) = (e.testBit i).toNat + 2 * (e / 2 ^ (i + 1) % 2 ^ n) := by
  rw [Nat.toNat_testBit, pow_succ', Nat.mod_mul, Nat.div_div_eq_div_mul, ← pow_succ]

@[simp] theorem natCast_mulp (a b : Scalar) : ((mulp a b).toNat : ZMod P) = a.toNat * b.toNat := by
  simp

/-- The loop multiplies into `r` the base raised to the `n` exponent bits from bit `i` on (40_field_scalar.md R107). -/
theorem natCast_scalarPowLoop (e n i : Nat) (r b : Scalar) :
    ((scalarPowLoop e n i r b).toNat : ZMod P) = r.toNat * (b.toNat : ZMod P) ^ (e / 2 ^ i % 2 ^ n) := by
  induction n generalizing i r b with
  | zero => simp [scalarPowLoop, Nat.mod_one]
  | succ n ih =>
    rw [scalarPowLoop, ih, div_two_pow_mod_two_pow_succ, natCast_mulp]
    cases e.testBit i <;> simp [pow_add, pow_mul, sq, mul_assoc]

/-- The loop of the self-check computes the power (40_field_scalar.md R107). -/
theorem natCast_scalarPow (base : Scalar) (e : Nat) :
    ((scalarPow base e).toNat : ZMod P) = (base.toNat : ZMod P) ^ e := by
  rw [scalarPow, natCast_scalarPowLoop, pow_zero, Nat.div_one, Nat.mod_eq_of_lt (lt_two_pow_bitLength e),
    scalarOf_toNat (by decide), Nat.cast_one, one_mul]

theorem scalarPowLoop_lt (e n i : Nat) {r : Scalar} (b : Scalar) (h : r.toNat < P) :
    (scalarPowLoop e n i r b).toNat < P := by
  induction n generalizing i r b with
  | zero => exact h
  | succ n ih =>
    refine ih _ _ ?_
    split
    · exact mulp_lt _ _
    · exact h

theorem scalarPow_lt (base : Scalar) (e : Nat) : (scalarPow base e).toNat < P :=
  scalarPowLoop_lt _ _ _ _ (by decide)

/-- Scalars below `P` are their residues. -/
theorem natCast_toNat_inj {a b : Scalar} (ha : a.toNat < P) (hb : b.toNat < P) :
    (a.toNat : ZMod P) = b.toNat ↔ a = b := by
  rw [ZMod.natCast_eq_natCast_iff', Nat.mod_eq_of_lt ha, Nat.mod_eq_of_lt hb, BitVec.toNat_inj]

/-- The self-check decides Euler's criterion for the discriminant 5 (40_field_scalar.md R107). -/
theorem chkIrreducible_iff : chkIrreducible = true ↔ (5 : ZMod P) ^ ((P - 1) / 2) = -1 := by
  have hbase : ((scalarOf irrBase).toNat : ZMod P) = 5 := by
    rw [scalarOf_toNat (by decide), irrBase, Nat.cast_ofNat]
  have hexp : irrExponent = (P - 1) / 2 := rfl
  have hneg : ((scalarOf (P - 1)).toNat : ZMod P) = -1 := by
    rw [scalarOf_toNat (by decide), Nat.cast_pred (by decide), ZMod.natCast_self, zero_sub]
  rw [chkIrreducible, beq_iff_eq, ← natCast_toNat_inj (scalarPow_lt _ _) (by decide), natCast_scalarPow, hbase, hneg,
    hexp]

/-- The model's own loop of thirty iterations, run (40_field_scalar.md R107). -/
theorem chkIrreducible_eq_true : chkIrreducible = true := by decide +kernel

end Sys2Proof.Proofs
end

section
/-! PROOFS. The statements about the reducer and the scalar commands (40_field_scalar.md). -/

namespace Sys2Proof.Proofs

open Sys2Proof.Machine Sys2Proof.Machine.Laws Sys2Proof.Config

/-- Settles O1: each round keeps the residue and bounds what is above bit 31, and the second is below `2P`. -/
theorem reducerGivesResidue : Obligations.ReducerGivesResidue := by
  refine fun x => ⟨reduce_lt x, by rw [reduce_toNat, Nat.mod_mod], reduceRound_word_le x,
    reduceRound_reduceRound_word_le x, reduce_le_of_le_reduceRound, fun h => ?_⟩
  have hfirst := reduceRound_lt_of_le_sq h
  exact ⟨hfirst, reduceRound_le_of_lt hfirst⟩

/-- Settles O2: the command writes back the reducer's result. -/
theorem redWritesResidue : Obligations.RedWritesResidue := fun rd rs1 _ =>
  ⟨decodeInvertsEncode (.red rd rs1) rfl, writeBack_scalarWord_onlyReg (reduce_toNat _)⟩

/-- Settles O3: the scalar views are the registers' residues, and each command writes back its operation on them. -/
theorem scalarCommandsComputeModP : Obligations.ScalarCommandsComputeModP := by
  intro rd rs1 rs2 s
  have hadd := addp_toNat (scalView_lt s rs1) (scalView_lt s rs2)
  have hsub := subp_toNat (scalView_lt s rs1) (scalView_lt s rs2)
  have hmul := mulp_toNat (s.scalView rs1) (s.scalView rs2)
  rw [scalView_toNat, scalView_toNat] at hadd hsub hmul
  exact ⟨⟨decodeInvertsEncode (.addp rd rs1 rs2) rfl, writeBack_scalarWord_onlyReg hadd⟩,
    ⟨decodeInvertsEncode (.subp rd rs1 rs2) rfl, writeBack_scalarWord_onlyReg hsub⟩,
    ⟨decodeInvertsEncode (.mulp rd rs1 rs2) rfl, writeBack_scalarWord_onlyReg hmul⟩⟩

/-- Settles O4: the self-check's loop is the power of Euler's criterion, its run says true, and `CHKIRR` writes it. -/
theorem selfCheckDecidesEulerCriterion : Obligations.SelfCheckDecidesEulerCriterion := by
  refine ⟨chkIrreducible_iff, chkIrreducible_eq_true, fun rd s => ⟨decodeInvertsEncode (.chkirr rd) rfl, ?_⟩⟩
  have hword : boolWord chkIrreducible = 1#64 := congrArg boolWord chkIrreducible_eq_true
  obtain ⟨t, hrun, hframe, hrd⟩ := writeBack_onlyReg s rd (boolWord chkIrreducible)
  exact ⟨t, hrun, hframe, hrd.trans hword⟩

end Sys2Proof.Proofs
end

section
/-! SUPPORT. The sums and the powers of elements in the quadratic algebra, the count of the exponentiation loop, the
order of the generator, and that the algebra is a field of `P²` elements (41_field_ext.md R120 to R132). -/

namespace Sys2Proof.Proofs

open Sys2Proof.Machine Sys2Proof.Machine.Laws Sys2Proof.Config

/-! ### Elements as pairs of numbers -/

/-- The element view of a register: each half of the word modulo `P` (10_state.md R23). -/
theorem isElem_elemView (s : State) (r : Reg) :
    IsElem (s.elemView r) (lowRes (s.reg r)) (highRes (s.reg r)) := elemOf_toNat _

theorem isCanonical_elemView (s : State) (r : Reg) : isCanonical (s.elemView r) = true := isCanonical_elemOf _

theorem isElem_addx {u v : Elem} {a b c d : Nat} (hu : isCanonical u = true) (hv : isCanonical v = true)
    (huab : IsElem u a b) (hvcd : IsElem v c d) : IsElem (addx u v) ((a + c) % P) ((b + d) % P) := by
  obtain ⟨hua, hub⟩ := isCanonical_iff.1 hu
  obtain ⟨hva, hvb⟩ := isCanonical_iff.1 hv
  obtain ⟨rfl, rfl⟩ := huab
  obtain ⟨rfl, rfl⟩ := hvcd
  exact ⟨addp_toNat hua hva, addp_toNat hub hvb⟩

theorem isElem_subx {u v : Elem} {a b c d : Nat} (hu : isCanonical u = true) (hv : isCanonical v = true)
    (huab : IsElem u a b) (hvcd : IsElem v c d) : IsElem (subx u v) ((a + P - c) % P) ((b + P - d) % P) := by
  obtain ⟨hua, hub⟩ := isCanonical_iff.1 hu
  obtain ⟨hva, hvb⟩ := isCanonical_iff.1 hv
  obtain ⟨rfl, rfl⟩ := huab
  obtain ⟨rfl, rfl⟩ := hvcd
  exact ⟨subp_toNat hua hva, subp_toNat hub hvb⟩

theorem isElem_negx {u : Elem} {a b : Nat} (hu : isCanonical u = true) (huab : IsElem u a b) :
    IsElem (negx u) ((P - a) % P) ((P - b) % P) := by
  obtain ⟨hua, hub⟩ := isCanonical_iff.1 hu
  obtain ⟨rfl, rfl⟩ := huab
  exact ⟨negp_toNat hua, negp_toNat hub⟩

theorem isProduct_mulx {u v : Elem} {a b c d : Nat} (huab : IsElem u a b) (hvcd : IsElem v c d) :
    IsProduct (mulx u v) a b c d := by
  obtain ⟨rfl, rfl⟩ := huab
  obtain ⟨rfl, rfl⟩ := hvcd
  exact mulx_toNat u v

/-- A command that writes back an element completes and writes the element's packed number to `rd`, and nothing else. -/
theorem writeBack_pack_onlyReg {s : State} {rd : Reg} {e : Elem} {a b : Nat} (h : IsElem e a b) :
    ∃ t, writeBack s rd (pack e) = .next t ∧ OnlyReg rd s t ∧ (t.reg rd).toNat = elemNat a b := by
  obtain ⟨rfl, rfl⟩ := h
  obtain ⟨t, hrun, hframe, hrd⟩ := writeBack_onlyReg s rd (pack e)
  exact ⟨t, hrun, hframe, by rw [hrd, pack_toNat, elemNat]⟩

/-! ### Sums in the ring -/

@[simp] theorem toQuad_zeroElem : toQuad zeroElem = 0 := by
  ext <;> simp [toQuad, zeroElem]

theorem natCast_addp {a b : Scalar} (ha : a.toNat < P) (hb : b.toNat < P) :
    ((addp a b).toNat : ZMod P) = a.toNat + b.toNat := by
  simp [addp_toNat ha hb]

theorem natCast_negp {a : Scalar} (ha : a.toNat < P) : ((negp a).toNat : ZMod P) = -(a.toNat : ZMod P) := by
  simp [negp_toNat ha, Nat.cast_sub ha.le]

theorem natCast_subp {a b : Scalar} (ha : a.toNat < P) (hb : b.toNat < P) :
    ((subp a b).toNat : ZMod P) = a.toNat - b.toNat := by
  simp [subp_toNat ha hb, Nat.cast_sub (show b.toNat ≤ a.toNat + P by omega)]

theorem toQuad_addx {u v : Elem} (hu : isCanonical u = true) (hv : isCanonical v = true) :
    toQuad (addx u v) = toQuad u + toQuad v := by
  rw [isCanonical_iff] at hu hv
  exact QuadraticAlgebra.ext (natCast_addp hu.1 hv.1) (natCast_addp hu.2 hv.2)

theorem toQuad_subx {u v : Elem} (hu : isCanonical u = true) (hv : isCanonical v = true) :
    toQuad (subx u v) = toQuad u - toQuad v := by
  rw [isCanonical_iff] at hu hv
  exact QuadraticAlgebra.ext (natCast_subp hu.1 hv.1) (natCast_subp hu.2 hv.2)

theorem toQuad_negx {u : Elem} (hu : isCanonical u = true) : toQuad (negx u) = -toQuad u := by
  rw [isCanonical_iff] at hu
  exact QuadraticAlgebra.ext (natCast_negp hu.1) (natCast_negp hu.2)

/-! ### The laws of the ring -/

section RingLaws

variable {u v w : Elem} (hu : isCanonical u = true) (hv : isCanonical v = true) (hw : isCanonical w = true)
include hu

theorem addx_zeroElem : addx u zeroElem = u := by
  refine eq_of_toQuad_eq (isCanonical_addx hu isCanonical_zero) hu ?_
  rw [toQuad_addx hu isCanonical_zero, toQuad_zeroElem, add_zero]

theorem addx_negx_self : addx u (negx u) = zeroElem := by
  have hneg := isCanonical_negx hu
  refine eq_of_toQuad_eq (isCanonical_addx hu hneg) isCanonical_zero ?_
  rw [toQuad_addx hu hneg, toQuad_negx hu, add_neg_cancel, toQuad_zeroElem]

theorem negx_negx : negx (negx u) = u := by
  have hneg := isCanonical_negx hu
  refine eq_of_toQuad_eq (isCanonical_negx hneg) hu ?_
  rw [toQuad_negx hneg, toQuad_negx hu, neg_neg]

theorem oneElem_mulx : mulx oneElem u = u := by
  refine eq_of_toQuad_eq (isCanonical_mulx _ _) hu ?_
  rw [toQuad_mulx, toQuad_oneElem, one_mul]

include hv

theorem addx_comm : addx u v = addx v u := by
  refine eq_of_toQuad_eq (isCanonical_addx hu hv) (isCanonical_addx hv hu) ?_
  rw [toQuad_addx hu hv, toQuad_addx hv hu, add_comm]

theorem subx_eq_addx_negx : subx u v = addx u (negx v) := by
  have hneg := isCanonical_negx hv
  refine eq_of_toQuad_eq (isCanonical_subx hu hv) (isCanonical_addx hu hneg) ?_
  rw [toQuad_subx hu hv, toQuad_addx hu hneg, toQuad_negx hv, sub_eq_add_neg]

include hw

theorem addx_assoc : addx (addx u v) w = addx u (addx v w) := by
  have huv := isCanonical_addx hu hv
  have hvw := isCanonical_addx hv hw
  refine eq_of_toQuad_eq (isCanonical_addx huv hw) (isCanonical_addx hu hvw) ?_
  rw [toQuad_addx huv hw, toQuad_addx hu hv, toQuad_addx hu hvw, toQuad_addx hv hw, add_assoc]

end RingLaws

theorem mulx_comm (u v : Elem) : mulx u v = mulx v u := by
  refine eq_of_toQuad_eq (isCanonical_mulx _ _) (isCanonical_mulx _ _) ?_
  rw [toQuad_mulx, toQuad_mulx, mul_comm]

theorem mulx_assoc (u v w : Elem) : mulx (mulx u v) w = mulx u (mulx v w) := by
  refine eq_of_toQuad_eq (isCanonical_mulx _ _) (isCanonical_mulx _ _) ?_
  simp only [toQuad_mulx, mul_assoc]

theorem zeroElem_mulx (u : Elem) : mulx zeroElem u = zeroElem := by
  refine eq_of_toQuad_eq (isCanonical_mulx _ _) isCanonical_zero ?_
  rw [toQuad_mulx, toQuad_zeroElem, zero_mul]

theorem mulx_addx (u : Elem) {v w : Elem} (hv : isCanonical v = true) (hw : isCanonical w = true) :
    mulx u (addx v w) = addx (mulx u v) (mulx u w) := by
  have huv := isCanonical_mulx u v
  have huw := isCanonical_mulx u w
  refine eq_of_toQuad_eq (isCanonical_mulx _ _) (isCanonical_addx huv huw) ?_
  rw [toQuad_mulx, toQuad_addx hv hw, toQuad_addx huv huw, toQuad_mulx, toQuad_mulx, mul_add]

/-! ### Powers and the exponentiation loop -/

theorem isCanonical_elemPow (b : Elem) (n : Nat) : isCanonical (elemPow b n) = true := by
  cases n with
  | zero => exact isCanonical_one
  | succ n => exact isCanonical_mulx _ _

theorem toQuad_elemPow (b : Elem) (n : Nat) : toQuad (elemPow b n) = toQuad b ^ n := by
  induction n with
  | zero => rw [elemPow, toQuad_oneElem, pow_zero]
  | succ n ih => rw [elemPow, toQuad_mulx, ih, pow_succ]

/-- Square-and-multiply agrees with repeated multiplication (41_field_ext.md R129). -/
theorem expx_eq_elemPow (b : Elem) (e : Word) : expx b e = elemPow b (e.toNat % N) :=
  eq_of_toQuad_eq (isCanonical_expx b e) (isCanonical_elemPow _ _) (by rw [toQuad_expx, toQuad_elemPow])

theorem expix_eq_elemPow (b : Elem) (e : Word) : expix b e = elemPow b ((N - e.toNat % N) % N) := by
  rw [expix, expx_eq_elemPow, inverseExponent_toNat, Nat.mod_mod]

theorem expLoop_iters (k n i : Nat) (r : ExpRun) : (expLoop k n i r).iters = r.iters + n := by
  induction n generalizing i r with
  | zero => rfl
  | succ n ih =>
    rw [expLoop, ih, expIteration_eq]
    exact Nat.succ_add_eq_add_succ r.iters n

/-- The loop runs once per bit of the reduced exponent (41_field_ext.md R130). -/
theorem expRun_iters (b : Elem) (e : Word) : (expRun b e).iters = bitLength (e.toNat % N) := by
  rw [expRun, expLoop_iters, Nat.zero_add, expIters]

theorem bitLength_eq_zero_iff {e : Nat} : bitLength e = 0 ↔ e = 0 := by
  unfold bitLength
  split <;> simp [*]

theorem bitLength_le_of_lt {e n : Nat} (h : e < 2 ^ n) : bitLength e ≤ n := by
  unfold bitLength
  split
  · exact Nat.zero_le n
  · exact (Nat.log2_lt ‹_›).2 h

/-- A command that writes back a power of the element view of `rs1`, the power said by repeated multiplication. -/
theorem writeBack_elemPow_onlyReg (s : State) (rd rs1 : Reg) {p : Elem} {n : Nat}
    (hp : p = elemPow (s.elemView rs1) n) :
    ∃ t, writeBack s rd (pack p) = .next t ∧ OnlyReg rd s t ∧
      ∃ base e : Elem, IsElem base (lowRes (s.reg rs1)) (highRes (s.reg rs1)) ∧
        e = elemPow base n ∧ (t.reg rd).toNat = elemNat e.a.toNat e.b.toNat := by
  obtain ⟨t, hrun, hframe, hrd⟩ := writeBack_pack_onlyReg (s := s) (rd := rd) (e := p) ⟨rfl, rfl⟩
  exact ⟨t, hrun, hframe, s.elemView rs1, p, isElem_elemView s rs1, hp, hrd⟩

/-! ### The generator -/

/-- Powers of the generator need no reduction of the exponent: its order divides `N` (41_field_ext.md R132). -/
theorem toQuad_expx_phiElem (e : Word) : toQuad (expx phiElem e) = toQuad phiElem ^ e.toNat := by
  rw [toQuad_expx, ← pow_eq_pow_mod _ toQuad_phiElem_pow_N]

/-- Multiplication by `x` takes `F(n) + F(n+1)·x` to `F(n+1) + (F(n) + F(n+1))·x` (41_field_ext.md R132). -/
theorem toQuad_phiElem_pow_succ (n : Nat) :
    toQuad phiElem ^ (n + 1) = ⟨(Nat.fib n : ZMod P), (Nat.fib (n + 1) : ZMod P)⟩ := by
  induction n with
  | zero => ext <;> simp [toQuad, phiElem]
  | succ n ih => rw [pow_succ, ih, Nat.fib_add_two]; ext <;> simp [toQuad, phiElem]

theorem isElem_of_toQuad_eq {e : Elem} {m n : Nat} (he : isCanonical e = true)
    (h : toQuad e = ⟨(m : ZMod P), (n : ZMod P)⟩) : IsElem e (m % P) (n % P) := by
  obtain ⟨ha, hb⟩ := isCanonical_iff.1 he
  obtain ⟨hm, hn⟩ := QuadraticAlgebra.ext_iff.1 h
  rw [toQuad, ZMod.natCast_eq_natCast_iff'] at hm hn
  rw [Nat.mod_eq_of_lt ha] at hm
  rw [Nat.mod_eq_of_lt hb] at hn
  exact ⟨hm, hn⟩

/-- Half the order of the generator gives `-1`, run by the model's own loop (41_field_ext.md R132). -/
theorem isElem_expx_phiElem_two_pow_31 : IsElem (expx phiElem 0x80000000#64) (P - 1) 0 := by
  unfold IsElem
  decide +kernel

theorem expx_phiElem_eq_oneElem_iff (e : Word) : expx phiElem e = oneElem ↔ toQuad phiElem ^ e.toNat = 1 := by
  rw [← toQuad_expx_phiElem]
  constructor
  · intro h
    rw [h, toQuad_oneElem]
  · intro h
    exact eq_of_toQuad_eq (isCanonical_expx _ _) isCanonical_one (h.trans toQuad_oneElem.symm)

/-- The order of the generator (41_field_ext.md R132): a power of 2 that divides `2^32` and not `2^31`. -/
theorem orderOf_toQuad_phiElem : orderOf (toQuad phiElem) = 2 ^ 32 := by
  have : Fact (Nat.Prime 2) := ⟨Nat.prime_two⟩
  refine orderOf_eq_prime_pow (fun hhalf => ?_) toQuad_phiElem_pow_two_pow_32
  have hone : expx phiElem 0x80000000#64 = oneElem := (expx_phiElem_eq_oneElem_iff _).2 hhalf
  have hneg := isElem_expx_phiElem_two_pow_31
  rw [hone] at hneg
  exact absurd hneg.1 (by decide)

/-! ### The field -/

/-- `P` is the Mersenne prime of exponent 31 (40_field_scalar.md R100). -/
theorem prime_P : P.Prime := lucas_lehmer_sufficiency 31 (by decide) (by norm_num)

/-- The polynomial of the extension has no root (41_field_ext.md R121): a root `r` would make `2r - 1` a square root of
the discriminant 5, which the self-check of R107 rules out. -/
theorem sq_ne_one_add (r : ZMod P) : r ^ 2 ≠ 1 + 1 * r := by
  have : Fact P.Prime := ⟨prime_P⟩
  have : Fact (2 < P) := ⟨by decide⟩
  intro hroot
  have hsquare : IsSquare (5 : ZMod P) := ⟨2 * r - 1, by linear_combination -4 * hroot⟩
  have heuler : (5 : ZMod P) ^ (P / 2) = -1 := chkIrreducible_iff.1 chkIrreducible_eq_true
  have hfive : (5 : ZMod P) ≠ 0 := by
    intro hzero
    rw [hzero, zero_pow (by decide)] at heuler
    exact neg_ne_zero.2 one_ne_zero heuler.symm
  exact ZMod.neg_one_ne_one (heuler.symm.trans ((ZMod.euler_criterion P hfive).1 hsquare))

theorem natCard_quad : Nat.card Quad = P ^ 2 := by
  rw [Nat.card_congr (QuadraticAlgebra.equivProd 1 1), Nat.card_prod, Nat.card_zmod, sq]

/-- The unit group of the field has `N = P² - 1` elements (41_field_ext.md R123). -/
theorem quad_pow_N {x : Quad} (hx : x ≠ 0) : x ^ N = 1 := by
  have : Fact P.Prime := ⟨prime_P⟩
  have : Fact (∀ r : ZMod P, r ^ 2 ≠ 1 + 1 * r) := ⟨sq_ne_one_add⟩
  have : Finite Quad := Nat.finite_of_card_ne_zero (by rw [natCard_quad]; decide)
  let : Fintype Quad := Fintype.ofFinite Quad
  have hcard : Fintype.card Quad - 1 = N := by
    rw [Fintype.card_eq_nat_card, natCard_quad]
    decide
  rw [← hcard]
  exact FiniteField.pow_card_sub_one_eq_one x hx

/-- The power and the inverse power of a base whose order divides `N` cancel (41_field_ext.md R131). -/
theorem mulx_expx_expix_of_pow_N {b : Elem} (hb : toQuad b ^ N = 1) (e : Word) :
    mulx (expx b e) (expix b e) = oneElem := by
  refine eq_of_toQuad_eq (isCanonical_mulx _ _) isCanonical_one ?_
  have hle : e.toNat % N ≤ N := (Nat.mod_lt _ (by decide)).le
  calc toQuad (mulx (expx b e) (expix b e))
      = toQuad b ^ (e.toNat % N) * toQuad b ^ ((N - e.toNat % N) % N) := by
        rw [toQuad_mulx, expx_eq_elemPow, expix_eq_elemPow, toQuad_elemPow, toQuad_elemPow]
    _ = toQuad b ^ N := by rw [← pow_eq_pow_mod (N - e.toNat % N) hb, ← pow_add, Nat.add_sub_cancel' hle]
    _ = toQuad oneElem := by rw [hb, toQuad_oneElem]

end Sys2Proof.Proofs
end

section
/-! PROOFS. The statements about GF(P²): the commands, the ring, exponentiation, the generator and inverse powers
(41_field_ext.md). -/

namespace Sys2Proof.Proofs

open Sys2Proof.Machine Sys2Proof.Machine.Laws Sys2Proof.Config

/-! ### The commands -/

/-- Settles O5: the command writes back the reduced register as component `a`, with component `b` zero. -/
theorem s2fWritesLiftedScalar : Obligations.S2fWritesLiftedScalar := fun rd rs1 _ =>
  ⟨decodeInvertsEncode (.s2f rd rs1) rfl, writeBack_pack_onlyReg ⟨reduce_toNat _, rfl⟩⟩

/-- Settles O6: the element views are canonical, and each command writes back its operation on them. -/
theorem extensionSumsActByComponent : Obligations.ExtensionSumsActByComponent := by
  intro rd rs1 rs2 s
  have hc1 := isCanonical_elemView s rs1
  have hc2 := isCanonical_elemView s rs2
  have he1 := isElem_elemView s rs1
  have he2 := isElem_elemView s rs2
  exact ⟨⟨decodeInvertsEncode (.addx rd rs1 rs2) rfl, writeBack_pack_onlyReg (isElem_addx hc1 hc2 he1 he2)⟩,
    ⟨decodeInvertsEncode (.subx rd rs1 rs2) rfl, writeBack_pack_onlyReg (isElem_subx hc1 hc2 he1 he2)⟩,
    ⟨decodeInvertsEncode (.negx rd rs1) rfl, writeBack_pack_onlyReg (isElem_negx hc1 he1)⟩⟩

/-- Settles O7: the command writes back the product of the element views. -/
theorem mulxMultipliesModuloPolynomial : Obligations.MulxMultipliesModuloPolynomial := fun rd rs1 rs2 s =>
  ⟨decodeInvertsEncode (.mulx rd rs1 rs2) rfl,
    writeBack_pack_onlyReg (isProduct_mulx (isElem_elemView s rs1) (isElem_elemView s rs2))⟩

/-- Settles O9: the loop is repeated multiplication, and it runs once per bit of the reduced exponent. -/
theorem expxWritesPower : Obligations.ExpxWritesPower := fun rd rs1 rs2 s =>
  ⟨decodeInvertsEncode (.expx rd rs1 rs2) rfl, congrArg (fun n => [n]) (expRun_iters _ _),
    writeBack_elemPow_onlyReg s rd rs1 (expx_eq_elemPow _ _)⟩

/-- Settles O10: the exponent of the inverse is below `N`, so reducing it again keeps it. -/
theorem expixWritesInversePower : Obligations.ExpixWritesInversePower := by
  intro rd rs1 rs2 s
  refine ⟨decodeInvertsEncode (.expix rd rs1 rs2) rfl, ?_,
    writeBack_elemPow_onlyReg s rd rs1 (expix_eq_elemPow _ _)⟩
  rw [iterations, expRun_iters, inverseExponent_toNat, Nat.mod_mod]

/-! ### The ring -/

/-- Settles O8: `toQuad` embeds the canonical elements in a commutative ring, and each law is carried back from it. -/
theorem canonicalElementsFormRing : Obligations.CanonicalElementsFormRing := fun u v w hu hv hw =>
  ⟨isCanonical_addx hu hv, isCanonical_mulx u v, isCanonical_negx hu, addx_comm hu hv, addx_assoc hu hv hw,
    addx_zeroElem hu, addx_negx_self hu, negx_negx hu, subx_eq_addx_negx hu hv, mulx_comm u v, mulx_assoc u v w,
    oneElem_mulx hu, zeroElem_mulx u, mulx_addx u hv hw⟩

/-! ### Iterations -/

/-- Settles O11: the count is a bit length, and `N` is below `2^62`. -/
theorem iterationCountIgnoresBase : Obligations.IterationCountIgnoresBase := by
  intro b c e
  have hlt : e.toNat % N < 2 ^ 62 := (Nat.mod_lt _ (by decide)).trans (by decide)
  rw [expRun_iters, expRun_iters]
  exact ⟨rfl, rfl, bitLength_le_of_lt hlt, bitLength_eq_zero_iff⟩

/-! ### The generator -/

/-- Settles O12: the pair of every key meets the standing invariant. -/
theorem keyedPairMultipliesToIdentity : Obligations.KeyedPairMultipliesToIdentity := fun key =>
  keyedOk_some_iff.1 (keyedOf_ok key)

/-- Settles O13: the power of the generator is the Fibonacci pair in the ring, and the model's power is canonical. -/
theorem generatorPowersAreFibonacciPairs : Obligations.GeneratorPowersAreFibonacciPairs := by
  intro e he
  have hpow := toQuad_phiElem_pow_succ (e.toNat - 1)
  rw [Nat.sub_add_cancel he, ← toQuad_expx_phiElem] at hpow
  exact isElem_of_toQuad_eq (isCanonical_expx _ _) hpow

/-- Settles O14: the model's powers are those of a ring element of order `2^32`, and exponents below the order are told
apart by their powers. -/
theorem generatorHasOrderTwoPow32 : Obligations.GeneratorHasOrderTwoPow32 := by
  refine ⟨isElem_expx_phiElem_two_pow_31, (expx_phiElem_eq_oneElem_iff _).2 toQuad_phiElem_pow_two_pow_32, ?_, ?_⟩
  · intro e hpos hlt hone
    rw [← orderOf_toQuad_phiElem] at hlt
    exact pow_ne_one_of_lt_orderOf hpos.ne' hlt ((expx_phiElem_eq_oneElem_iff e).1 hone)
  · intro k l hkl
    have hbelow (key : BitVec 32) : key.toNat < orderOf (toQuad phiElem) := by
      rw [orderOf_toQuad_phiElem]
      exact key.isLt
    have hkey (key : BitVec 32) : toQuad (keyedOf key).phik = toQuad phiElem ^ key.toNat := by
      rw [keyedOf, toQuad_expx_phiElem, BitVec.toNat_setWidth_of_le (by decide)]
    have hpow : toQuad phiElem ^ k.toNat = toQuad phiElem ^ l.toNat := by rw [← hkey, ← hkey, hkl]
    exact BitVec.eq_of_toNat_eq (pow_injOn_Iio_orderOf (hbelow k) (hbelow l) hpow)

/-! ### Inverse powers -/

/-- Settles O15: a canonical non-zero element is a unit of the field, whose unit group has order `N`. -/
theorem nonzeroElementsHaveInversePowers : Obligations.NonzeroElementsHaveInversePowers := by
  intro b e hb hne
  refine mulx_expx_expix_of_pow_N (quad_pow_N fun hzero => hne ?_) e
  exact eq_of_toQuad_eq hb isCanonical_zero (hzero.trans toQuad_zeroElem.symm)

end Sys2Proof.Proofs
end

section
/-! SUPPORT. Chunks as ranges of indices, a pass in any order of the lanes, the two cell functions and their inverses,
and the frame of a pass (42_transform.md R150 to R161). -/

namespace Sys2Proof.Proofs

open Sys2Proof.Machine Sys2Proof.Machine.Laws Sys2Proof.Config

/-! ### Chunks -/

/-- A chunk is a contiguous range, cut short at the end of the sequence (42_transform.md R152). -/
theorem chunkIndices_eq_range' (elems len c : Nat) :
    chunkIndices elems len c = List.range' (c * elems) (min elems (len - c * elems)) :=
  List.range'_eq_map_range.symm

@[simp] theorem chunkIndices_length (elems len c : Nat) :
    (chunkIndices elems len c).length = min elems (len - c * elems) := by
  rw [chunkIndices_eq_range', List.length_range']

theorem mem_chunkIndices {elems len c i : Nat} :
    i ∈ chunkIndices elems len c ↔ c * elems ≤ i ∧ i < min len ((c + 1) * elems) := by
  rw [chunkIndices_eq_range', List.mem_range'_1, Nat.succ_mul]
  omega

/-- The first `n` chunks are the indices below `n * elems`, as far as the sequence goes. -/
theorem flatten_map_chunkIndices (elems len n : Nat) :
    ((List.range n).map (chunkIndices elems len)).flatten = List.range (min len (n * elems)) := by
  induction n with
  | zero => simp
  | succ n ih =>
    rw [List.range_succ, List.map_append, List.flatten_append, ih, List.map_singleton, List.flatten_singleton,
      chunkIndices_eq_range', Nat.succ_mul]
    rcases Nat.le_total (n * elems) len with hle | hle
    · have hmin : min len (n * elems + elems) = n * elems + min elems (len - n * elems) := by omega
      rw [Nat.min_eq_right hle, hmin, List.range_eq_range', List.range_eq_range', ← List.range'_append_1, Nat.zero_add]
    · have hmin : min len (n * elems + elems) = len := by omega
      rw [Nat.min_eq_left hle, hmin, Nat.sub_eq_zero_of_le hle, Nat.min_zero, List.range'_zero, List.append_nil]

/-- `c` chunks hold the whole sequence exactly when there are at most `c` of them (42_transform.md R152). -/
theorem chunkCount_le_iff {elems len c : Nat} (h : 1 ≤ elems) : chunkCount elems len ≤ c ↔ len ≤ c * elems := by
  rw [Nat.mul_comm]
  exact ceilDiv_le_iff_le_mul h

theorem chunks_length (elems len : Nat) : (chunks elems len).length = (len + elems - 1) / elems := by
  rw [chunks, List.length_map, List.length_range, chunkCount]

theorem chunks_flatten {elems len : Nat} (h : 1 ≤ elems) : (chunks elems len).flatten = List.range len := by
  rw [chunks, flatten_map_chunkIndices, Nat.min_eq_left ((chunkCount_le_iff h).1 le_rfl)]

/-- Every chunk begins within the sequence, so it covers a cell, and it is at most one chunk size long. -/
theorem length_of_mem_chunks {elems len : Nat} (h : 1 ≤ elems) {l : List Nat} (hl : l ∈ chunks elems len) :
    1 ≤ l.length ∧ l.length ≤ elems := by
  obtain ⟨c, hc, rfl⟩ := List.mem_map.1 hl
  have hlt : c * elems < len := by
    rw [← Nat.not_le, ← chunkCount_le_iff h, Nat.not_le]
    exact List.mem_range.1 hc
  rw [chunkIndices_length]
  omega

theorem eq_chunkIndices_of_chunks_getElem? {elems len c : Nat} {l : List Nat} (h : (chunks elems len)[c]? = some l) :
    l = chunkIndices elems len c := by
  rw [chunks, List.getElem?_map, Option.map_eq_some_iff] at h
  obtain ⟨d, hd, rfl⟩ := h
  obtain ⟨-, rfl⟩ := List.getElem?_eq_some_iff.1 hd
  rw [List.getElem_range]

/-! ### Lanes -/

/-- A lane step reads and writes its own cell alone (42_transform.md R156). -/
theorem laneStep_getElem? (f : Nat → Elem → Elem) (cells : List Elem) (i j : Nat) :
    (laneStep f cells i)[j]? = if i = j then cells[j]?.map (f j) else cells[j]? := by
  rw [laneStep, List.getElem?_modify]
  by_cases hij : i = j
  · subst hij
    simp
  · simp [hij]

/-- The lanes change the scheduled cells and no others, each once, from the value it had at the start: a cell's step
waits for no other cell's (42_transform.md R156). -/
theorem runLanes_getElem? (f : Nat → Elem → Elem) {schedule : List Nat} (hnodup : schedule.Nodup)
    (cells : List Elem) (j : Nat) :
    (runLanes f schedule cells)[j]? = if j ∈ schedule then cells[j]?.map (f j) else cells[j]? := by
  induction schedule generalizing cells with
  | nil => simp [runLanes]
  | cons i rest ih =>
    obtain ⟨hi, hrest⟩ := List.nodup_cons.1 hnodup
    have hrun : runLanes f (i :: rest) cells = runLanes f rest (laneStep f cells i) := rfl
    rw [hrun, ih hrest, laneStep_getElem?]
    by_cases hij : i = j
    · subst hij
      simp [hi]
    · simp [hij, Ne.symm hij]

/-- Any order of all indices gives the map over the cells (42_transform.md R156). -/
theorem runLanes_eq_mapIdx (f : Nat → Elem → Elem) {schedule : List Nat} {cells : List Elem}
    (h : schedule.Perm (List.range cells.length)) : runLanes f schedule cells = cells.mapIdx f := by
  refine List.ext_getElem? fun j => ?_
  rw [runLanes_getElem? f (h.nodup_iff.2 List.nodup_range), List.getElem?_mapIdx]
  split
  case isTrue => rfl
  case isFalse hj =>
    rw [h.mem_iff, List.mem_range, Nat.not_lt] at hj
    rw [List.getElem?_eq_none hj, Option.map_none]

theorem mapIdx_mulx_eq_phiPass (cells : List Elem) (g : Elem) :
    cells.mapIdx (fun _ e => mulx e g) = (phiPass cells g).1 := by
  refine List.ext_getElem? fun j => ?_
  rw [List.getElem?_mapIdx, phiPass_getElem?]

/-! ### The Haar pass -/

/-- Negation on every 31-bit component, `P` itself included, which is no scalar (40_field_scalar.md R106). -/
theorem negp_toNat_of_any (a : Scalar) : (negp a).toNat = (P - a.toNat) % P := by
  have hle : a.toNat ≤ P := Nat.le_of_lt_succ a.isLt
  rcases hle.lt_or_eq with hlt | heq
  · exact negp_toNat hlt
  · rw [scalar_ext (a := a) (b := 2147483647#31) heq]
    decide

/-- The sign of a cell follows the parity of its global index (42_transform.md R154). -/
theorem isElem_haarCell (i : Nat) (e : Elem) : IsElem (haarCell i e) (signed i e.a.toNat) (signed i e.b.toNat) := by
  unfold haarCell signed
  split
  · exact ⟨negp_toNat_of_any e.a, negp_toNat_of_any e.b⟩
  · exact ⟨rfl, rfl⟩

theorem haarCell_haarCell {i : Nat} {e : Elem} (he : isCanonical e = true) : haarCell i (haarCell i e) = e := by
  unfold haarCell
  split
  · exact negx_negx he
  · rfl

/-- The Haar pass is its own inverse (42_transform.md R154). -/
theorem haarPass_haarPass {cells : List Elem} (h : ∀ e ∈ cells, isCanonical e = true) :
    haarPass (haarPass cells) = cells := by
  refine List.ext_getElem? fun i => ?_
  rw [haarPass_getElem?, haarPass_getElem?, Option.map_map]
  refine (Option.map_congr fun e he => ?_).trans Option.map_id'
  exact haarCell_haarCell (h e (List.mem_of_getElem? he))

/-! ### The phi pass -/

/-- The phi pass by an element is undone by the phi pass by its inverse (42_transform.md R155). -/
theorem phiPass_phiPass_of_mulx_eq_one {g h : Elem} (hgh : mulx g h = oneElem) {cells : List Elem}
    (hc : ∀ e ∈ cells, isCanonical e = true) : (phiPass (phiPass cells g).1 h).1 = cells := by
  refine List.ext_getElem? fun i => ?_
  rw [phiPass_getElem?, phiPass_getElem?, Option.map_map]
  refine (Option.map_congr fun e he => ?_).trans Option.map_id'
  calc mulx (mulx e g) h = mulx oneElem e := by rw [mulx_assoc, hgh, mulx_comm]
    _ = e := oneElem_mulx (hc e (List.mem_of_getElem? he))

/-! ### The frame of a pass -/

/-- A command that replaces the cells of `SEQ` after `chunk_init` completes, and writes nothing else
(42_transform.md R151, R160). -/
theorem retire_chunkInit_replaceSeq_onlySeq (s : State) (cells : List Elem) :
    ∃ t, retire (s.chunkInit.setMem (s.mem.replaceSeq cells)) = .next t ∧ OnlySeq s t ∧ ChunkUsed s t ∧
      t.mem = s.mem.replaceSeq cells :=
  ⟨_, rfl, ⟨⟨rfl, rfl, rfl, rfl, rfl, rfl⟩, fun _ => rfl, rfl, rfl, ⟨rfl, fun _ => rfl⟩, ⟨rfl, fun _ => rfl⟩, rfl⟩,
    congrArg some (chunkValue_eq s), rfl⟩

/-- Writing `NOP` before the command completes is writing it after (42_transform.md R161). -/
theorem retire_setNop {s t : State} (b : Bool) (h : retire s = .next t) : retire (s.setNop b) = .next (t.setNop b) := by
  obtain rfl := retire_eq_next.1 h
  rfl

/-- Everything `HAAR` does (42_transform.md R160). -/
theorem exec_haar_onlySeq (s : State) :
    ∃ t, exec .haar s = .next t ∧ OnlySeq s t ∧ ChunkUsed s t ∧ t.mem = s.mem.replaceSeq (haarPass s.mem.seq) :=
  retire_chunkInit_replaceSeq_onlySeq s _

/-- Everything `PHI` does: a pass that writes `SEQ` only, and then `NOP` (42_transform.md R161). -/
theorem exec_phi_onlySeq_setNop (rs1 : Reg) (s : State) :
    ∃ t, exec (.phi rs1) s = .next (t.setNop s.mem.seq.isEmpty) ∧ OnlySeq s t ∧ ChunkUsed s t ∧
      t.mem = s.mem.replaceSeq (phiPass s.mem.seq (s.elemView rs1)).1 := by
  obtain ⟨t, hrun, hframe⟩ := retire_chunkInit_replaceSeq_onlySeq s (phiPass s.mem.seq (s.elemView rs1)).1
  exact ⟨t, retire_setNop _ hrun, hframe⟩

/-- Everything `TOFREQ` does with a key (43_frame.md R173). -/
theorem exec_tofreq_onlySeq {s : State} {k : KeyedPair} (h : s.keyed = some k) :
    ∃ t, exec .tofreq s = .next t ∧ OnlySeq s t ∧ ChunkUsed s t ∧
      t.mem = s.mem.replaceSeq (toFreq s.mem.seq k.phik) := by
  have hrun : exec .tofreq s = retire (s.chunkInit.setMem (s.mem.replaceSeq (toFreq s.mem.seq k.phik))) := by
    change execTofreq s = _
    rw [execTofreq, h, orFault_some]
  rw [hrun]
  exact retire_chunkInit_replaceSeq_onlySeq s _

end Sys2Proof.Proofs
end

section
/-! PROOFS. The statements about the transform: the chunk size, chunks and lanes, `HAAR` and `PHI` (42_transform.md). -/

namespace Sys2Proof.Proofs

open Sys2Proof.Machine Sys2Proof.Machine.Laws Sys2Proof.Config

/-! ### Chunks and lanes -/

/-- Settles O27: from 64 lanes on, the quotient is at most the floor of 4096 bytes. -/
theorem chunkSizeIsClamped : Obligations.ChunkSizeIsClamped := by
  intro nlanes _
  have hbytes : chunkBytes nlanes = max 4096 (262144 / nlanes) := rfl
  have helems : chunkElems nlanes = chunkBytes nlanes / 8 := rfl
  refine ⟨hbytes, helems, by omega, fun h64 => ?_⟩
  have hquot : 262144 / nlanes ≤ 262144 / 64 := Nat.div_le_div_left h64 (by decide)
  omega

/-- Settles O28: each chunk is a range, and one after another they make up the range of all indices. -/
theorem chunksPartitionIndices : Obligations.ChunksPartitionIndices := by
  intro elems len h
  refine ⟨chunks_flatten h, fun _ => length_of_mem_chunks h, chunks_length elems len, fun c l hl i => ?_⟩
  rw [eq_chunkIndices_of_chunks_getElem? hl, mem_chunkIndices]

/-- Settles O29: a schedule meets every index once, so the lanes leave the map over the cells, which the commands
write. -/
theorem laneSchedulesAreUnobservable : Obligations.LaneSchedulesAreUnobservable := by
  intro f elems cells schedule helems hperm
  rw [chunks_flatten helems] at hperm
  refine ⟨runLanes_eq_mapIdx f hperm, ?_⟩
  rintro s rfl
  have hhaar : runLanes haarCell schedule s.mem.seq = haarPass s.mem.seq := runLanes_eq_mapIdx haarCell hperm
  refine ⟨?_, fun rs1 => ?_, fun k second hkey hsecond => ?_⟩
  · obtain ⟨t, hrun, -, -, hmem⟩ := exec_haar_onlySeq s
    exact ⟨t, hrun, by rw [hmem, hhaar, Memory.replaceSeq]⟩
  · obtain ⟨t, hrun, -, -, hmem⟩ := exec_phi_onlySeq_setNop rs1 s
    refine ⟨_, hrun, ?_⟩
    rw [runLanes_eq_mapIdx _ hperm, mapIdx_mulx_eq_phiPass, setNop_mem, hmem, Memory.replaceSeq]
  · obtain ⟨t, hrun, -, -, hmem⟩ := exec_tofreq_onlySeq hkey
    have hall : second.Perm (List.range (haarPass s.mem.seq).length) := by
      rw [haarPass_length]
      exact hsecond.trans hperm
    refine ⟨t, hrun, ?_⟩
    rw [hhaar, runLanes_eq_mapIdx _ hall, mapIdx_mulx_eq_phiPass, hmem, Memory.replaceSeq, toFreq]

/-! ### HAAR -/

/-- Settles O30: the command writes the Haar pass, whose cells carry the sign of their index. -/
theorem haarNegatesOddCells : Obligations.HaarNegatesOddCells := by
  intro s
  obtain ⟨t, hrun, hframe, hchunk, hmem⟩ := exec_haar_onlySeq s
  have hseq : t.mem.seq = haarPass s.mem.seq := congrArg Memory.seq hmem
  refine ⟨decodeInvertsEncode .haar rfl, t, hrun, hframe, hchunk, by rw [hseq, haarPass_length], fun i e he => ?_⟩
  rw [Memory.readSeq] at he
  exact ⟨haarCell i e, by rw [Memory.readSeq, hseq, haarPass_getElem?, he, Option.map_some], isElem_haarCell i e⟩

/-- Settles O31: both commands write the Haar pass, which is its own inverse. -/
theorem haarTwiceRestoresSequence : Obligations.HaarTwiceRestoresSequence := by
  intro s hcanonical
  obtain ⟨t, hrun, -, -, hmem⟩ := exec_haar_onlySeq s
  obtain ⟨u, hrun', -, -, hmem'⟩ := exec_haar_onlySeq t
  refine ⟨t, u, hrun, hrun', ?_⟩
  simp only [hmem', hmem, Memory.replaceSeq, haarPass_haarPass hcanonical]

/-! ### PHI -/

/-- Settles O32: the command writes the phi pass by the element view, and `NOP` by whether the sequence is empty. -/
theorem phiMultipliesEveryCell : Obligations.PhiMultipliesEveryCell := by
  intro rs1 s
  obtain ⟨t, hrun, ⟨hcompleted, hregs, -, hkeyed, hbyte, htext, hout⟩, hchunk, hmem⟩ := exec_phi_onlySeq_setNop rs1 s
  have hseq : t.mem.seq = (phiPass s.mem.seq (s.elemView rs1)).1 := congrArg Memory.seq hmem
  refine ⟨decodeInvertsEncode (.phi rs1) rfl, _, hrun, hcompleted, hregs, hkeyed, hbyte, htext, hout, hchunk, ?_, ?_,
    fun i e he => ?_⟩
  · rw [setNop_nop, List.isEmpty_iff_length_eq_zero]
  · rw [setNop_mem, hseq, phiPass_length]
  · rw [Memory.readSeq] at he
    refine ⟨mulx e (s.elemView rs1), ?_, isProduct_mulx ⟨rfl, rfl⟩ (isElem_elemView s rs1)⟩
    rw [Memory.readSeq, setNop_mem, hseq, phiPass_getElem?, he, Option.map_some]

/-- Settles O33: the pair of every key meets the standing invariant, so the second pass undoes the first. -/
theorem phiRoundTripRestoresSequence : Obligations.PhiRoundTripRestoresSequence := by
  intro key cells hcanonical
  obtain ⟨-, -, hinverse⟩ := keyedOk_some_iff.1 (keyedOf_ok key)
  exact phiPass_phiPass_of_mulx_eq_one hinverse hcanonical

end Sys2Proof.Proofs
end

section
/-! SUPPORT. Bytes as elements and the decoding of cells, the cells `EDIT` writes, the pairs `VERIFY` checks, and the
frames of the frame commands (43_frame.md R170 to R181). -/

namespace Sys2Proof.Proofs

open Sys2Proof.Machine Sys2Proof.Machine.Laws Sys2Proof.Config

/-! ### The keyed pair -/

/-- A key is below the group order, so no exponent of a key is reduced (43_frame.md R170). -/
theorem key_mod_N (key : BitVec 32) : (key.setWidth 64).toNat % N = key.toNat := by
  rw [BitVec.toNat_setWidth_of_le (by decide)]
  exact Nat.mod_eq_of_lt (key.isLt.trans (by decide))

theorem keyView_toNat (s : State) (r : Reg) : (s.keyView r).toNat = (s.reg r).toNat % 2 ^ 32 := by
  rw [State.keyView, BitVec.extractLsb'_toNat, Nat.shiftRight_zero]

theorem lt_bitLength_iff {e n : Nat} : n < bitLength e ↔ 2 ^ n ≤ e := by
  unfold bitLength
  split
  case isTrue he => simp [he]
  case isFalse he => rw [Nat.lt_succ_iff, Nat.le_log2 he]

/-- The exponent of the inverse of a non-zero key lies between `2^61` and `2^62` (43_frame.md R171). -/
theorem bitLength_N_sub {k : Nat} (hpos : k ≠ 0) (hlt : k < 2 ^ 32) : bitLength ((N - k) % N) = 62 := by
  have hmod : (N - k) % N = N - k := Nat.mod_eq_of_lt (Nat.sub_lt (by decide) (Nat.pos_of_ne_zero hpos))
  rw [hmod]
  have hlow : 61 < bitLength (N - k) := lt_bitLength_iff.2 (by simp only [N]; omega)
  have hhigh : bitLength (N - k) ≤ 62 := bitLength_le_of_lt (by simp only [N]; omega)
  omega

/-- The two exponentiations of `KEYLD` (43_frame.md R171). -/
theorem iterations_keyld_sum (rs1 : Reg) (s : State) : (iterations (.keyld rs1) s).sum =
    bitLength (s.keyView rs1).toNat + bitLength ((N - (s.keyView rs1).toNat) % N) := by
  simp only [iterations, List.sum_cons, List.sum_nil, Nat.add_zero, expRun_iters, inverseExponent_toNat, Nat.mod_mod,
    key_mod_N]

/-! ### Bytes as cells -/

/-- The element a byte is encoded from (43_frame.md R174). -/
def byteElem (b : Byte) : Elem := s2f (b.setWidth 64)

theorem processData_eq_phiPass (bytes : List Byte) (g : Elem) :
    processData bytes g = (phiPass (haarPass (bytes.map byteElem)) g).1 := rfl

theorem isElem_byteElem (b : Byte) : IsElem (byteElem b) b.toNat 0 := by
  have hlt : b.toNat < P := b.isLt.trans (by decide)
  refine ⟨?_, rfl⟩
  rw [byteElem, s2f, reduce_toNat, BitVec.toNat_setWidth_of_le (by decide), Nat.mod_eq_of_lt hlt]

theorem byteElem_injective : Function.Injective byteElem := by
  intro b c h
  obtain ⟨hb, -⟩ := isElem_byteElem b
  obtain ⟨hc, -⟩ := isElem_byteElem c
  exact BitVec.eq_of_toNat_eq (by rw [← hb, ← hc, h])

theorem isCanonical_byteElem (b : Byte) : isCanonical (byteElem b) = true := isCanonical_s2f _

theorem map_byteElem_canonical (bytes : List Byte) : ∀ e ∈ bytes.map byteElem, isCanonical e = true := by
  intro e he
  obtain ⟨b, -, rfl⟩ := List.mem_map.1 he
  exact isCanonical_byteElem b

theorem signed_zero (i : Nat) : signed i 0 = 0 := by
  unfold signed
  split
  · exact Nat.mod_self P
  · rfl

theorem isElem_haarCell_byteElem (i : Nat) (b : Byte) : IsElem (haarCell i (byteElem b)) (signed i b.toNat) 0 := by
  have h := isElem_haarCell i (byteElem b)
  obtain ⟨ha, hb⟩ := isElem_byteElem b
  rwa [ha, hb, signed_zero] at h

/-- A product with a lifted scalar is by component (43_frame.md R174). -/
theorem isElem_of_isProduct_scalar {e : Elem} {a c d : Nat} (h : IsProduct e a 0 c d) :
    IsElem e (a * c % P) (a * d % P) := by
  simpa [IsProduct] using h

/-- The phi pass by the inverse element leaves the sign flips of the encoding alone (43_frame.md R180). -/
theorem phiPass_processData {g h : Elem} (hgh : mulx g h = oneElem) (bytes : List Byte) :
    (phiPass (processData bytes g) h).1 = haarPass (bytes.map byteElem) := by
  rw [processData_eq_phiPass]
  exact phiPass_phiPass_of_mulx_eq_one hgh (haarPass_canonical (map_byteElem_canonical bytes))

/-- Encoding under a pair that meets the standing invariant can be undone (43_frame.md R174). -/
theorem processData_injective {g h : Elem} (hgh : mulx g h = oneElem) :
    Function.Injective fun bytes => processData bytes g := by
  intro b c hbc
  have hhaar : haarPass (b.map byteElem) = haarPass (c.map byteElem) := by
    rw [← phiPass_processData hgh b, ← phiPass_processData hgh c]
    exact congrArg (fun cells => (phiPass cells h).1) hbc
  have hmap : b.map byteElem = c.map byteElem := by
    rw [← haarPass_haarPass (map_byteElem_canonical b), hhaar, haarPass_haarPass (map_byteElem_canonical c)]
  exact List.map_injective_iff.2 byteElem_injective hmap

/-! ### Decoding -/

/-- The value a cell decodes to is component `a` with its sign flipped back (43_frame.md R180). -/
theorem decodeCell_eq (i : Nat) (e : Elem) : decodeCell i e =
    if e.b = 0#31 then
      if (haarCell i e).a.toNat < 128 then some ((haarCell i e).a.setWidth 8) else none
    else none := by
  have ha : (haarCell i e).a = if i % 2 = 1 then negp e.a else e.a := by
    unfold haarCell
    split <;> rfl
  rw [ha]
  rfl

/-- A scalar below the limit fits into a byte. -/
theorem byte_toNat_of_lt {a : Scalar} (h : a.toNat < 128) : (a.setWidth 8).toNat = a.toNat := by
  rw [BitVec.toNat_setWidth]
  exact Nat.mod_eq_of_lt (h.trans (by decide))

/-- What the cell `(a, b)` decodes to under the inverse keyed element `(c, d)` (43_frame.md R180). -/
theorem decodeCell_mulx_map_toNat (i : Nat) (e f : Elem) : (decodeCell i (mulx e f)).map BitVec.toNat =
    decodedValue i e.a.toNat e.b.toNat f.a.toNat f.b.toNat := by
  obtain ⟨ha, hb⟩ := mulx_toNat e f
  obtain ⟨hvalue, -⟩ := isElem_haarCell i (mulx e f)
  have hzero : (mulx e f).b = 0#31 ↔ (mulx e f).b.toNat = 0 := BitVec.toNat_inj.symm
  rw [decodeCell_eq, decodedValue, ← ha, ← hb, ← hvalue]
  simp only [hzero]
  split
  · split
    case isTrue hlt => rw [Option.map_some, byte_toNat_of_lt hlt]
    case isFalse => rfl
  · rfl

/-- An encoded byte, its factor removed, decodes to itself where it is below the limit (43_frame.md R180). -/
theorem decodeCell_haarCell_byteElem (i : Nat) (b : Byte) :
    decodeCell i (haarCell i (byteElem b)) = if b.toNat < 128 then some b else none := by
  obtain ⟨-, hb⟩ := isElem_haarCell_byteElem i b
  obtain ⟨ha, -⟩ := isElem_byteElem b
  rw [decodeCell_eq, if_pos (BitVec.eq_of_toNat_eq hb), haarCell_haarCell (isCanonical_byteElem b), ha]
  split
  case isTrue hlt => exact congrArg some (BitVec.eq_of_toNat_eq ((byte_toNat_of_lt (ha.trans_lt hlt)).trans ha))
  case isFalse => rfl

/-- Indexing a list and keeping what the cells give, said over the indices below the length. -/
theorem filterMap_mapIdx_eq_filterMap_range {α β : Type} (l : List α) (g : Nat → α → Option β) :
    (l.mapIdx g).filterMap id = (List.range l.length).filterMap fun i => l[i]?.bind (g i) := by
  have hmap : l.mapIdx g = (List.range l.length).map fun i => l[i]?.bind (g i) := by
    refine List.ext_getElem (by simp) fun i hi _ => ?_
    rw [List.length_mapIdx] at hi
    simp [hi]
  rw [hmap, List.filterMap_map, Function.id_comp]

/-- The decoded text, in index order (43_frame.md R180). -/
theorem reconstruct_map_toNat (cells : List Elem) (f : Elem) : (reconstruct cells f).map BitVec.toNat =
    (List.range cells.length).filterMap fun i =>
      cells[i]?.bind fun e => decodedValue i e.a.toNat e.b.toNat f.a.toNat f.b.toNat := by
  rw [reconstruct, filterMap_mapIdx_eq_filterMap_range, phiPass_length, List.map_filterMap]
  refine List.filterMap_congr fun i _ => ?_
  rw [phiPass_getElem?]
  cases cells[i]? with
  | none => rfl
  | some e => exact decodeCell_mulx_map_toNat i e f

/-- Decoding undoes encoding but for the bytes from 128 on (43_frame.md R180). -/
theorem reconstruct_processData {g h : Elem} (hgh : mulx g h = oneElem) (bytes : List Byte) :
    reconstruct (processData bytes g) h = bytes.filter fun b => decide (b.toNat < 128) := by
  have hcells : (haarPass (bytes.map byteElem)).mapIdx decodeCell =
      bytes.map (Option.guard fun b => decide (b.toNat < 128)) := by
    refine List.ext_getElem? fun i => ?_
    rw [List.getElem?_mapIdx, haarPass_getElem?, List.getElem?_map, List.getElem?_map]
    cases bytes[i]? with
    | none => rfl
    | some b => simp [decodeCell_haarCell_byteElem, Option.guard]
  rw [reconstruct, phiPass_processData hgh, hcells, List.filterMap_map, Function.id_comp, List.filterMap_eq_filter]

/-! ### Edit -/

/-- The cells after an edit within bounds: the negation at the partner, which is written last, and the value at the
start (43_frame.md R176). -/
theorem editFrequency_getElem? {selfPair : Bool} {cells : List Elem} {level pos i : Nat} (nv g : Elem)
    (hself : level = 0 → selfPair = true) (hstart : pos * 2 ^ level < cells.length) (hi : i < cells.length) :
    (editFrequency selfPair cells level pos nv g)[i]? =
      if i = pos * 2 ^ level + 2 ^ level / 2 then some (negx (mulx nv g))
      else if i = pos * 2 ^ level then some (mulx nv g) else cells[i]? := by
  simp only [editFrequency, editStart, hstart, if_true]
  cases hq : partnerOf selfPair cells.length level (pos * 2 ^ level) with
  | some q =>
    obtain ⟨-, rfl, hlt⟩ := partnerOf_eq_some.1 hq
    rw [← List.length_set (i := pos * 2 ^ level) (a := mulx nv g)] at hlt
    simp only [List.getElem?_set_of_lt' _ _ hlt, List.getElem?_set_of_lt' _ _ hstart, eq_comm]
  | none =>
    have hne : i ≠ pos * 2 ^ level + 2 ^ level / 2 := by
      rintro rfl
      exact Option.some_ne_none _ ((partnerOf_eq_some.2 ⟨hself, rfl, hi⟩).symm.trans hq)
    simp only [if_neg hne, List.getElem?_set_of_lt' _ _ hstart, eq_comm]

/-- An edit out of bounds changes nothing (43_frame.md R176). -/
theorem editFrequency_of_le {selfPair : Bool} {cells : List Elem} {level pos : Nat} (nv g : Elem)
    (h : cells.length ≤ pos * 2 ^ level) : editFrequency selfPair cells level pos nv g = cells :=
  if_neg (Nat.not_lt.2 h)

/-! ### The pairs checked -/

theorem pairZero_iff {cells : List Elem} {p q : Nat} : pairZero cells p q = true ↔
    ∀ u v, cells[p]? = some u → cells[q]? = some v → addx u v = zeroElem := by
  unfold pairZero
  cases cells[p]? <;> cases cells[q]? <;> simp

/-- The blocks of a level start at the multiples of its span (43_frame.md R178). -/
theorem mem_blockStarts {len level start : Nat} :
    start ∈ blockStarts len level ↔ 2 ^ level ∣ start ∧ start < len := by
  have hcount (j : Nat) : j < (len + 2 ^ level - 1) / 2 ^ level ↔ j * 2 ^ level < len := by
    rw [← Nat.not_le, ← Nat.not_le]
    exact not_congr (chunkCount_le_iff Nat.one_le_two_pow)
  simp only [blockStarts, List.mem_map, List.mem_range, hcount]
  constructor
  · rintro ⟨j, hj, rfl⟩
    exact ⟨Nat.dvd_mul_left _ _, hj⟩
  · rintro ⟨⟨j, rfl⟩, hlt⟩
    rw [Nat.mul_comm] at hlt ⊢
    exact ⟨j, hlt, rfl⟩

/-- Every pair of a level that lies within the sequence sums to zero (43_frame.md R178). -/
theorem verifyLevel_iff {selfPair : Bool} {cells : List Elem} {level : Nat} :
    verifyLevel selfPair cells level = true ↔ ∀ (start : Nat) (u v : Elem), 2 ^ level ∣ start →
      (level = 0 → selfPair = true) → cells[start]? = some u → cells[start + 2 ^ level / 2]? = some v →
      addx u v = zeroElem := by
  rw [verifyLevel, List.all_eq_true]
  constructor
  · intro h start u v hdvd hself hu hv
    obtain ⟨hstart, -⟩ := List.getElem?_eq_some_iff.1 hu
    obtain ⟨hpartner, -⟩ := List.getElem?_eq_some_iff.1 hv
    have hblock := h start (mem_blockStarts.2 ⟨hdvd, hstart⟩)
    rw [partnerOf_eq_some.2 ⟨hself, rfl, hpartner⟩] at hblock
    exact pairZero_iff.1 hblock u v hu hv
  · intro h start hstart
    obtain ⟨hdvd, -⟩ := mem_blockStarts.1 hstart
    split
    case h_1 q hq =>
      obtain ⟨hself, rfl, -⟩ := partnerOf_eq_some.1 hq
      exact pairZero_iff.2 fun u v => h start u v hdvd hself
    case h_2 => rfl

theorem verifyRelationships_iff {selfPair : Bool} {cells : List Elem} :
    verifyRelationships selfPair cells = true ↔ ∀ level, 2 ^ level ≤ cells.length →
      verifyLevel selfPair cells level = true := by
  simp only [verifyRelationships, List.all_eq_true, List.mem_range, lt_bitLength_iff]

/-- No 31-bit value but 0 is its own negation, `P` itself included: `P` is odd (40_field_scalar.md R103). -/
theorem addp_self_eq_zero_iff {a : Scalar} : addp a a = 0#31 ↔ a.toNat = 0 := by
  have ha := a.isLt
  have hvalue : (addp a a).toNat = subtractP (a.toNat + a.toNat) % 2147483648 := BitVec.toNat_ofNat _ _
  have hzero : (0#31).toNat = 0 := rfl
  rw [← BitVec.toNat_inj, hvalue, hzero, subtractP]
  split <;> simp only [P] at * <;> omega

theorem addx_self_eq_zeroElem_iff {e : Elem} : addx e e = zeroElem ↔ IsElem e 0 0 := by
  rw [addx, zeroElem, Elem.mk.injEq, addp_self_eq_zero_iff, addp_self_eq_zero_iff, IsElem]

theorem eq_zeroElem_of_isElem {e : Elem} (h : IsElem e 0 0) : e = zeroElem := elem_ext h.1 h.2

/-- With every index its own partner at level 0, the check accepts the all-zero sequences alone (43_frame.md R185). -/
theorem verifyRelationships_true_iff {cells : List Elem} :
    verifyRelationships true cells = true ↔ ∀ e ∈ cells, IsElem e 0 0 := by
  simp only [verifyRelationships_iff, verifyLevel_iff]
  constructor
  · intro h e he
    obtain ⟨i, hi⟩ := List.mem_iff_getElem?.1 he
    have hlen : 2 ^ 0 ≤ cells.length := List.length_pos_of_mem he
    exact addx_self_eq_zeroElem_iff.1 (h 0 hlen i e e (Nat.one_dvd i) (fun _ => trivial) hi hi)
  · intro h level _ start u v _ _ hu hv
    have hu0 := eq_zeroElem_of_isElem (h u (List.mem_of_getElem? hu))
    have hv0 := eq_zeroElem_of_isElem (h v (List.mem_of_getElem? hv))
    rw [hu0, hv0]
    rfl

/-! ### The frames of the commands -/

theorem orFault_of_eq_some {α : Type} {o : Option α} {v : α} (h : o = some v) (s : State) (c : FaultCause) (i : Instr)
    (go : α → Result) : orFault o s c i go = go v := by
  rw [h, orFault_some]

/-- A command that lacks what it needs takes its fault, and nothing else happens (60_exceptions.md R234). -/
theorem orFault_faulted {α : Type} {o : Option α} (h : o = none) (s : State) (c : FaultCause) (i : Instr)
    (go : α → Result) : ∃ t, orFault o s c i go = .next t ∧ Faulted c (encode i) s t := by
  rw [h, orFault_none]
  exact ⟨_, rfl, rfl⟩

/-- Everything `KEYLD` does (43_frame.md R171). -/
theorem exec_keyld (rs1 : Reg) (s : State) :
    exec (.keyld rs1) s = .next { s with keyed := some (keyedOf (s.keyView rs1)), cc := s.cc + 1#64 } := rfl

/-- Everything `PROC` does with a key (43_frame.md R175). -/
theorem exec_proc_onlySeq {s : State} {k : KeyedPair} (h : s.keyed = some k) :
    ∃ t, exec .proc s = .next t ∧ OnlySeq s t ∧ ChunkUsed s t ∧
      t.mem = s.mem.replaceSeq (processData s.mem.byte k.phik) := by
  have hrun : exec .proc s = retire (s.chunkInit.setMem (s.mem.replaceSeq (processData s.mem.byte k.phik))) :=
    orFault_of_eq_some h _ _ _ _
  rw [hrun]
  exact retire_chunkInit_replaceSeq_onlySeq s _

theorem execEdit_of_le {level : BitVec 32} (h : level.toNat ≤ 63) (rs1 rs2 : Reg) (s : State) :
    exec (.edit rs1 rs2 level) s = orFault s.keyed s .noKey (.edit rs1 rs2 level) fun k =>
      retire (s.setMem (s.mem.replaceSeq
        (editFrequency l0SelfPair s.mem.seq level.toNat (s.intView rs1) (s.elemView rs2) k.phik))) :=
  if_pos h

/-- Everything `EDIT` does with a key at a level that has an encoding (43_frame.md R177). -/
theorem exec_edit_onlySeq {s : State} {k : KeyedPair} {level : BitVec 32} (hkey : s.keyed = some k)
    (hlevel : level.toNat ≤ 63) (rs1 rs2 : Reg) :
    ∃ t, exec (.edit rs1 rs2 level) s = .next t ∧ OnlySeq s t ∧ SameChunk s t ∧ t.mem = s.mem.replaceSeq
      (editFrequency l0SelfPair s.mem.seq level.toNat (s.reg rs1).toNat (s.elemView rs2) k.phik) := by
  rw [execEdit_of_le hlevel, orFault_of_eq_some hkey]
  exact ⟨_, rfl, ⟨⟨rfl, rfl, rfl, rfl, rfl, rfl⟩, fun _ => rfl, rfl, rfl, ⟨rfl, fun _ => rfl⟩, ⟨rfl, fun _ => rfl⟩,
    rfl⟩, rfl, rfl⟩

/-- Everything `RECON` does with a key (43_frame.md R181). -/
theorem exec_recon_replaceText {s : State} {k : KeyedPair} (h : s.keyed = some k) :
    ∃ t, exec .recon s = .next t ∧ Completed s t ∧ SameRegs s t ∧ t.nop = s.nop ∧ SameKeyed s t ∧ SameSeq s t ∧
      SameByte s t ∧ SameOut s t ∧ ChunkUsed s t ∧ t.mem = s.mem.replaceText (reconstruct s.mem.seq k.phink) := by
  have hrun : exec .recon s = retire (s.chunkInit.setMem (s.mem.replaceText (reconstruct s.mem.seq k.phink))) :=
    orFault_of_eq_some h _ _ _ _
  rw [hrun]
  exact ⟨_, rfl, ⟨rfl, rfl, rfl, rfl, rfl, rfl⟩, fun _ => rfl, rfl, rfl, ⟨rfl, fun _ => rfl⟩, ⟨rfl, fun _ => rfl⟩,
    rfl, congrArg some (chunkValue_eq s), rfl⟩

end Sys2Proof.Proofs
end

section
/-! PROOFS. The statements about the frame: `KEYLD`, `TOFREQ`, `PROC`, `EDIT`, `VERIFY`, `RECON`, and that encoding
loses no input (43_frame.md). -/

namespace Sys2Proof.Proofs

open Sys2Proof.Machine Sys2Proof.Machine.Laws Sys2Proof.Config

/-! ### Keys and passes -/

/-- Settles O34: the key is the low half of the register, below `N`, and both exponentiations are repeated
multiplication. -/
theorem keyldLoadsKeyedPair : Obligations.KeyldLoadsKeyedPair := by
  intro rs1 s
  refine ⟨decodeInvertsEncode (.keyld rs1) rfl, ⟨_, exec_keyld rs1 s, ?_, ?_⟩, ?_⟩
  · rw [keyedOf, expx_eq_elemPow, key_mod_N, keyView_toNat]
  · rw [keyedOf, expix_eq_elemPow, key_mod_N, keyView_toNat]
  · rw [iterations_keyld_sum, keyView_toNat]
    split
    case isTrue hzero => rw [hzero]; decide
    case isFalse hpos => rw [bitLength_N_sub hpos (Nat.mod_lt _ (by decide))]

/-- Settles O35: the command writes the forward transform, sign first and factor second. -/
theorem tofreqTransformsInPlace : Obligations.TofreqTransformsInPlace := by
  intro s
  refine ⟨decodeInvertsEncode .tofreq rfl, fun k hkey => ?_, fun hkey => orFault_faulted hkey _ _ _ _⟩
  obtain ⟨t, hrun, hframe, hchunk, hmem⟩ := exec_tofreq_onlySeq hkey
  have hseq : t.mem.seq = toFreq s.mem.seq k.phik := congrArg Memory.seq hmem
  refine ⟨t, hrun, hframe, hchunk, by rw [hseq, toFreq_length], fun i e he => ?_⟩
  rw [Memory.readSeq] at he
  refine ⟨mulx (haarCell i e) k.phik, ?_, isProduct_mulx (isElem_haarCell i e) ⟨rfl, rfl⟩⟩
  rw [Memory.readSeq, hseq, toFreq_getElem?, he, Option.map_some]

/-- Settles O36: the command writes the encoding of the input, whose cells are products with lifted scalars. -/
theorem procEncodesInputBytes : Obligations.ProcEncodesInputBytes := by
  intro s
  refine ⟨decodeInvertsEncode .proc rfl, fun k hkey => ?_, fun hkey => orFault_faulted hkey _ _ _ _⟩
  obtain ⟨t, hrun, hframe, hchunk, hmem⟩ := exec_proc_onlySeq hkey
  have hseq : t.mem.seq = processData s.mem.byte k.phik := congrArg Memory.seq hmem
  refine ⟨t, hrun, hframe, hchunk, by rw [hseq, processData_length], fun i b hb => ?_⟩
  rw [Memory.readByte] at hb
  refine ⟨mulx (haarCell i (byteElem b)) k.phik, ?_,
    isElem_of_isProduct_scalar (isProduct_mulx (isElem_haarCell_byteElem i b) ⟨rfl, rfl⟩)⟩
  rw [Memory.readSeq, hseq, processData_getElem?, hb, Option.map_some, byteElem]

/-! ### EDIT -/

/-- Settles O37: the partner is `start + span/2` where that is within bounds, at level 0 under `L0_SELF_PAIR`. -/
theorem editWritesPair : Obligations.EditWritesPair := by
  intro rs1 rs2 level s hlevel
  refine ⟨decodeInvertsEncode (.edit rs1 rs2 level) (decide_eq_true hlevel), fun k hkey hself => ?_, fun hkey => ?_⟩
  · obtain ⟨t, hrun, hframe, hchunk, hmem⟩ := exec_edit_onlySeq hkey hlevel rs1 rs2
    refine ⟨t, mulx (s.elemView rs2) k.phik, hrun, hframe, hchunk,
      isProduct_mulx (isElem_elemView s rs2) ⟨rfl, rfl⟩, ?_, fun a => ?_⟩
    · rw [hmem, Memory.replaceSeq, editFrequency_length]
    · rw [hmem, Memory.replaceSeq, Memory.readSeq, Memory.readSeq]
      split
      case isTrue hin =>
        obtain ⟨hstart, ha⟩ := hin
        exact editFrequency_getElem? _ _ (fun _ => hself) hstart ha
      case isFalse hout =>
        rcases Nat.lt_or_ge ((s.reg rs1).toNat * 2 ^ level.toNat) s.mem.seq.length with hlt | hge
        · have ha : s.mem.seq.length ≤ a := Nat.not_lt.1 fun ha => hout ⟨hlt, ha⟩
          rw [List.getElem?_eq_none ha, List.getElem?_eq_none (by rwa [editFrequency_length])]
        · rw [editFrequency_of_le _ _ hge]
  · rw [execEdit_of_le hlevel]
    exact orFault_faulted hkey _ _ _ _

/-- Settles O38: from level 1 on the partner is another cell, and the two hold a canonical element and its negation. -/
theorem editedPairSumsToZero : Obligations.EditedPairSumsToZero := by
  intro rs1 rs2 level s k hlow hhigh hkey hpartner
  obtain ⟨t, hrun, -, -, hmem⟩ := exec_edit_onlySeq hkey hhigh rs1 rs2
  have hhalf : 0 < 2 ^ level.toNat / 2 := Nat.div_pos (Nat.le_pow hlow) (by decide)
  have hstart : (s.reg rs1).toNat * 2 ^ level.toNat < s.mem.seq.length := (Nat.le_add_right _ _).trans_lt hpartner
  have hself : level.toNat = 0 → l0SelfPair = true := fun h0 => absurd h0 (Nat.ne_of_gt hlow)
  refine ⟨t, mulx (s.elemView rs2) k.phik, negx (mulx (s.elemView rs2) k.phik), hrun, ?_, ?_,
    addx_negx_self (isCanonical_mulx _ _)⟩
  · rw [hmem, Memory.replaceSeq, Memory.readSeq, editFrequency_getElem? _ _ hself hstart hstart,
      if_neg (Nat.lt_add_of_pos_right hhalf).ne, if_pos rfl]
  · rw [hmem, Memory.replaceSeq, Memory.readSeq, editFrequency_getElem? _ _ hself hstart hpartner, if_pos rfl]

/-! ### VERIFY -/

/-- Settles O39: the levels are those below the bit length, and the blocks of a level start at its multiples. -/
theorem verifyChecksEveryPair : Obligations.VerifyChecksEveryPair := by
  intro selfPair cells
  simp only [verifyRelationships_iff, verifyLevel_iff]
  exact ⟨fun h level start u v hlen => h level hlen start u v, fun h level hlen start u v => h level start u v hlen⟩

/-- Settles O40: an index that is its own partner asks that twice the cell be zero, so that the cell is. -/
theorem verifyAcceptsZeroSequencesOnly : Obligations.VerifyAcceptsZeroSequencesOnly := by
  intro rd s hself
  obtain ⟨t, hrun, hframe, hrd⟩ := writeBack_onlyReg s rd (boolWord (verifyRelationships l0SelfPair s.mem.seq))
  rw [hself] at hrd
  refine ⟨decodeInvertsEncode (.verify rd) rfl, t, hrun, hframe, fun hall => ?_, fun ⟨e, he, hne⟩ => ?_⟩
  · rw [hrd, verifyRelationships_true_iff.2 hall, boolWord, if_pos rfl]
  · have hfalse : verifyRelationships true s.mem.seq = false :=
      Bool.eq_false_iff.2 fun htrue => hne (verifyRelationships_true_iff.1 htrue e he)
    rw [hrd, hfalse, boolWord, if_neg Bool.false_ne_true]

/-! ### Decoding -/

/-- Settles O41: the command writes the decoded values in index order, and its pass works on a copy. -/
theorem reconDecodesSequence : Obligations.ReconDecodesSequence := by
  intro s
  refine ⟨decodeInvertsEncode .recon rfl, fun k hkey => ?_, fun hkey => orFault_faulted hkey _ _ _ _⟩
  obtain ⟨t, hrun, hcompleted, hregs, hnop, hkeyed, hseq, hbyte, hout, hchunk, hmem⟩ := exec_recon_replaceText hkey
  refine ⟨t, hrun, hcompleted, hregs, hnop, hkeyed, hseq, hbyte, hout, hchunk, ?_⟩
  rw [hmem, Memory.replaceText]
  exact reconstruct_map_toNat s.mem.seq k.phink

/-- Settles O42: `PROC` keeps the pair, whose standing invariant makes decoding undo encoding. -/
theorem procThenReconReturnsAsciiInput : Obligations.ProcThenReconReturnsAsciiInput := by
  intro s hok hkv
  obtain ⟨k, hkey⟩ := Option.isSome_iff_exists.1 hkv
  obtain ⟨-, hkeyedOk, -, -⟩ := ok_iff.1 hok
  rw [hkey] at hkeyedOk
  obtain ⟨-, -, hinverse⟩ := keyedOk_some_iff.1 hkeyedOk
  obtain ⟨t, hproc, ⟨-, -, -, hkeyed, -⟩, -, hmem⟩ := exec_proc_onlySeq hkey
  obtain ⟨u, hrecon, -, -, -, -, -, -, -, -, hmem'⟩ := exec_recon_replaceText (hkeyed.trans hkey)
  refine ⟨t, u, hproc, hrecon, ?_, ?_⟩
  · rw [hmem', hmem]
    exact reconstruct_processData hinverse s.mem.byte
  · rw [hmem', hmem, Memory.replaceText, Memory.replaceSeq]

/-- Settles O43: the pair of a key meets the standing invariant, so equal encodings have equal inputs. -/
theorem encodingsOfDifferentInputsDiffer : Obligations.EncodingsOfDifferentInputsDiffer := by
  intro key b c hlen hne
  obtain ⟨-, -, hinverse⟩ := keyedOk_some_iff.1 (keyedOf_ok key)
  by_contra hsame
  push Not at hsame
  refine hne (processData_injective hinverse (List.ext_getElem? fun i => ?_))
  rcases Nat.lt_or_ge i b.length with hlt | hge
  · exact hsame i hlt
  · have hge' : c.length ≤ i := hlen ▸ hge
    simp [hge, hge']

end Sys2Proof.Proofs
end

section
/-! SUPPORT. The words the moves, the loads and `RDSR` write, and the frames of the commands that replace one memory
(44_data_movement.md R200 to R212). -/

namespace Sys2Proof.Proofs

open Sys2Proof.Machine Sys2Proof.Machine.Laws Sys2Proof.Config

/-! ### Words that are written -/

/-- One word before another is its value times the other's range, plus the other's value. -/
theorem append_toNat {m n : Nat} (a : BitVec m) (b : BitVec n) : (a ++ b).toNat = a.toNat * 2 ^ n + b.toNat := by
  rw [BitVec.toNat_append, Nat.shiftLeft_eq, Nat.mul_comm, ← Nat.two_pow_add_eq_or_of_lt b.isLt]

/-- The low half of a register is its number modulo `2^32` (44_data_movement.md R202). -/
theorem lowHalf_toNat (v : Word) : (v.extractLsb' 0 32).toNat = v.toNat % 2 ^ 32 := by
  rw [BitVec.extractLsb'_toNat, Nat.shiftRight_zero]

theorem byteView_toNat (s : State) (r : Reg) : (s.byteView r).toNat = (s.reg r).toNat % 256 := by
  rw [State.byteView, BitVec.extractLsb'_toNat, Nat.shiftRight_zero]

theorem byteWord_toNat (b : Byte) : (byteWord b).toNat = b.toNat := BitVec.toNat_setWidth_of_le (by decide)

/-- The three flags stand in bits 2, 1, 0 (10_state.md R31). -/
theorem flags_toNat : ∀ c n k : Bool,
    ((BitVec.ofBool c ++ BitVec.ofBool n ++ BitVec.ofBool k).setWidth 64).toNat
      = c.toNat * 4 + n.toNat * 2 + k.toNat := by
  decide

theorem statusWord_toNat (s : State) : s.statusWord.toNat = s.chv.toNat * 4 + s.nop.toNat * 2 + s.kv.toNat :=
  flags_toNat s.chv s.nop s.kv

theorem cfgWord_toNat (s : State) : s.cfgWord.toNat = s.cfg.cap.toNat * 2 ^ 32 + s.cfg.nlanes.toNat :=
  append_toNat _ _

/-- A length within `CAP` fits the 32 bits it is read in (10_state.md R27). -/
theorem lengthWord_toNat {n : Nat} {cap : BitVec 32} (h : n ≤ cap.toNat) :
    ((BitVec.ofNat 32 n).setWidth 64).toNat = n := by
  rw [BitVec.toNat_setWidth_of_le (by decide), BitVec.toNat_ofNat, Nat.mod_eq_of_lt (h.trans_lt cap.isLt)]

/-- No chunk is larger than the target, whatever the number of lanes (42_transform.md R150). -/
theorem chunkBytes_le (nlanes : Nat) : chunkBytes nlanes ≤ chunkTarget :=
  max_le (by decide) (Nat.div_le_self _ _)

/-- After first use the chunk size is the computed one, where a held size is the right one (10_state.md R28). -/
theorem chunkValue_toNat {s : State} (h : chunkOk s.cfg s.chunk = true) :
    s.chunkValue.toNat = max 4096 (262144 / s.cfg.nlanes.toNat) := by
  have hvalue : s.chunkValue = BitVec.ofNat 32 (chunkBytes s.cfg.nlanes.toNat) :=
    eq_of_beq (chunkOk_chunkValue h)
  have hlt : chunkBytes s.cfg.nlanes.toNat < 2 ^ 32 := (chunkBytes_le _).trans_lt (by decide)
  rw [hvalue, BitVec.toNat_ofNat, Nat.mod_eq_of_lt hlt]
  rfl

/-! ### Commands that write one register -/

/-- A command that writes back a word completes and writes the word's number to `rd`, and nothing else. -/
theorem writeBack_toNat_onlyReg {s : State} {rd : Reg} {v : Word} {n : Nat} (h : v.toNat = n) :
    ∃ t, writeBack s rd v = .next t ∧ OnlyReg rd s t ∧ (t.reg rd).toNat = n := by
  obtain ⟨t, hrun, hframe, hrd⟩ := writeBack_onlyReg s rd v
  exact ⟨t, hrun, hframe, by rw [hrd, h]⟩

/-- A command that finds what it needs and writes back its word writes nothing else. -/
theorem orFault_writeBack_onlyReg {α : Type} {o : Option α} {a : α} (ho : o = some a) {s : State} {c : FaultCause}
    {i : Instr} {rd : Reg} {word : α → Word} {n : Nat} (hn : (word a).toNat = n) :
    ∃ t, (orFault o s c i fun v => writeBack s rd (word v)) = .next t ∧ OnlyReg rd s t ∧ (t.reg rd).toNat = n := by
  rw [orFault_of_eq_some ho]
  exact writeBack_toNat_onlyReg hn

/-- Reading a length is reading a plain register, and the value is the length where it is within `CAP`
(10_state.md R27, R31). -/
theorem writeBack_length_onlyReg {s : State} (rd : Reg) {n : Nat}
    (hle : s.mem.wf s.cfg.cap.toNat = true → n ≤ s.cfg.cap.toNat) :
    ∃ t, writeBack s rd ((BitVec.ofNat 32 n).setWidth 64) = .next t ∧ OnlyReg rd s t ∧
      (s.mem.wf s.cfg.cap.toNat = true → (t.reg rd).toNat = n) := by
  obtain ⟨t, hrun, hframe, hrd⟩ := writeBack_onlyReg s rd ((BitVec.ofNat 32 n).setWidth 64)
  exact ⟨t, hrun, hframe, fun hwf => by rw [hrd, lengthWord_toNat (hle hwf)]⟩

/-! ### Commands that replace one memory -/

theorem lengthView_of_le {s : State} {r : Reg} (h : (s.reg r).toNat ≤ s.cfg.cap.toNat) :
    s.lengthView r = some (s.reg r).toNat :=
  if_pos h

theorem lengthView_of_lt {s : State} {r : Reg} (h : s.cfg.cap.toNat < (s.reg r).toNat) : s.lengthView r = none :=
  if_neg h.not_ge

theorem writeSeq_of_lt {m : Memory} {i : Nat} (h : i < m.seq.length) (e : Elem) :
    m.writeSeq i e = some (m.replaceSeq (m.seq.set i e)) :=
  if_pos h

theorem writeByte_of_lt {m : Memory} {i : Nat} (h : i < m.byte.length) (b : Byte) :
    m.writeByte i b = some (m.replaceByte (m.byte.set i b)) :=
  if_pos h

/-- A command that finds what it needs and replaces the cells of `SEQ` writes nothing else. -/
theorem orFault_replaceSeq_onlySeq {α : Type} {o : Option α} {a : α} (ho : o = some a) {s : State} {c : FaultCause}
    {i : Instr} {mem : α → Memory} {cells : List Elem} (hmem : mem a = s.mem.replaceSeq cells) :
    ∃ t, (orFault o s c i fun v => retire (s.setMem (mem v))) = .next t ∧ OnlySeq s t ∧ SameChunk s t ∧
      t.mem = s.mem.replaceSeq cells := by
  rw [orFault_of_eq_some ho, hmem]
  exact ⟨_, rfl, ⟨⟨rfl, rfl, rfl, rfl, rfl, rfl⟩, fun _ => rfl, rfl, rfl, ⟨rfl, fun _ => rfl⟩, ⟨rfl, fun _ => rfl⟩,
    rfl⟩, rfl, rfl⟩

/-- A command that finds what it needs and replaces the cells of `BYTE` writes nothing else. -/
theorem orFault_replaceByte_onlyByte {α : Type} {o : Option α} {a : α} (ho : o = some a) {s : State} {c : FaultCause}
    {i : Instr} {mem : α → Memory} {cells : List Byte} (hmem : mem a = s.mem.replaceByte cells) :
    ∃ t, (orFault o s c i fun v => retire (s.setMem (mem v))) = .next t ∧ OnlyByte s t ∧
      t.mem = s.mem.replaceByte cells := by
  rw [orFault_of_eq_some ho, hmem]
  exact ⟨_, rfl, ⟨⟨rfl, rfl, rfl, rfl, rfl, rfl⟩, fun _ => rfl, rfl, rfl, rfl, ⟨rfl, fun _ => rfl⟩,
    ⟨rfl, fun _ => rfl⟩, rfl⟩, rfl⟩

/-- Everything `NEWSEQ` does with a length within `CAP` (44_data_movement.md R206). -/
theorem exec_newseq_onlySeq {s : State} {rs1 : Reg} (h : (s.reg rs1).toNat ≤ s.cfg.cap.toNat) :
    ∃ t, exec (.newseq rs1) s = .next t ∧ OnlySeq s t ∧ SameChunk s t ∧
      t.mem = s.mem.replaceSeq (List.replicate (s.reg rs1).toNat zeroElem) :=
  orFault_replaceSeq_onlySeq (lengthView_of_le h) rfl

/-- Everything `NEWBUF` does with a length within `CAP` (44_data_movement.md R209). -/
theorem exec_newbuf_onlyByte {s : State} {rs1 : Reg} (h : (s.reg rs1).toNat ≤ s.cfg.cap.toNat) :
    ∃ t, exec (.newbuf rs1) s = .next t ∧ OnlyByte s t ∧
      t.mem = s.mem.replaceByte (List.replicate (s.reg rs1).toNat 0#8) :=
  orFault_replaceByte_onlyByte (lengthView_of_le h) rfl

/-- Everything `STE` does below the length (44_data_movement.md R208). -/
theorem exec_ste_onlySeq {s : State} {rs1 : Reg} (h : s.intView rs1 < s.mem.seq.length) (rs2 : Reg) :
    ∃ t, exec (.ste rs1 rs2) s = .next t ∧ OnlySeq s t ∧ SameChunk s t ∧
      t.mem = s.mem.replaceSeq (s.mem.seq.set (s.intView rs1) (s.elemView rs2)) :=
  orFault_replaceSeq_onlySeq (writeSeq_of_lt h _) rfl

/-- Everything `STB` does below the length (44_data_movement.md R211). -/
theorem exec_stb_onlyByte {s : State} {rs1 : Reg} (h : s.intView rs1 < s.mem.byte.length) (rs2 : Reg) :
    ∃ t, exec (.stb rs1 rs2) s = .next t ∧ OnlyByte s t ∧
      t.mem = s.mem.replaceByte (s.mem.byte.set (s.intView rs1) (s.byteView rs2)) :=
  orFault_replaceByte_onlyByte (writeByte_of_lt h _) rfl

end Sys2Proof.Proofs
end

section
/-! PROOFS. The statements about data movement: immediates and moves, `RDSR`, `OUT`, `NOP`, and the commands on single
cells and whole memories (44_data_movement.md). -/

namespace Sys2Proof.Proofs

open Sys2Proof.Machine Sys2Proof.Machine.Laws Sys2Proof.Config

/-! ### Immediates, moves, output -/

/-- Settles O16: the command retires the state as it is. -/
theorem nopAdvancesCounterOnly : Obligations.NopAdvancesCounterOnly := fun _ =>
  ⟨decodeInvertsEncode .nop rfl, rfl⟩

/-- Settles O17: each command writes back one word, the constant, the constant before the low half, or the register. -/
theorem immediatesAndMovesAreRaw : Obligations.ImmediatesAndMovesAreRaw := by
  intro rd rs1 imm s
  have hlih : (imm ++ (s.reg rd).extractLsb' 0 32).toNat = imm.toNat * 2 ^ 32 + (s.reg rd).toNat % 2 ^ 32 := by
    rw [append_toNat, lowHalf_toNat]
  exact ⟨⟨decodeInvertsEncode (.lil rd imm) rfl, writeBack_toNat_onlyReg (BitVec.toNat_setWidth_of_le (by decide))⟩,
    ⟨decodeInvertsEncode (.lih rd imm) rfl, writeBack_toNat_onlyReg hlih⟩,
    ⟨decodeInvertsEncode (.mov rd rs1) rfl, writeBack_onlyReg s rd (s.reg rs1)⟩⟩

/-- Settles O19: the command emits the register and retires. -/
theorem outAppendsRegister : Obligations.OutAppendsRegister := fun rs1 _ =>
  ⟨decodeInvertsEncode (.out rs1) rfl, rfl⟩

/-! ### RDSR -/

/-- Settles O20: each number names a word that is written back, and lengths within `CAP` fit 32 bits. -/
theorem rdsrReadsPlainRegisters : Obligations.RdsrReadsPlainRegisters := by
  intro rd s
  refine ⟨fun sr hsr => decodeInvertsEncode (.rdsr rd sr) (decide_eq_true hsr),
    writeBack_toNat_onlyReg (statusWord_toNat s), writeBack_onlyReg s rd s.cc,
    writeBack_length_onlyReg rd fun hwf => ?_, writeBack_length_onlyReg rd fun hwf => ?_,
    writeBack_length_onlyReg rd fun hwf => ?_, writeBack_toNat_onlyReg (cfgWord_toNat s)⟩
  all_goals obtain ⟨hseq, hbyte, htext, -, -⟩ := wf_iff.1 hwf
  · exact hseq
  · exact hbyte
  · exact htext

/-- Settles O21: both numbers go on with the pair where one is held, and fault otherwise. -/
theorem rdsrOfKeyedRegistersNeedsKey : Obligations.RdsrOfKeyedRegistersNeedsKey := by
  refine fun rd s => ⟨fun k hkey => ⟨?_, ?_⟩, fun hkey sr hsr => ?_⟩
  · exact orFault_writeBack_onlyReg hkey (pack_toNat k.phik)
  · exact orFault_writeBack_onlyReg hkey (pack_toNat k.phink)
  · obtain rfl | rfl := hsr
    · exact orFault_faulted hkey s .noKey (.rdsr rd 5#32) _
    · exact orFault_faulted hkey s .noKey (.rdsr rd 6#32) _

/-- Settles O22: the command writes back the chunk size after `chunk_init`, which alone writes `CHUNK`. -/
theorem rdsrOfChunkComputesOnce : Obligations.RdsrOfChunkComputesOnce := by
  intro rd s hok
  have hvalue : (s.chunkValue.setWidth 64).toNat = max 4096 (262144 / s.cfg.nlanes.toNat) := by
    rw [BitVec.toNat_setWidth_of_le (by decide), chunkValue_toNat hok]
  obtain ⟨t, hrun, ⟨hcompleted, hregs, hnop, hkeyed, hchunk, hmem, hout⟩, hrd⟩ :=
    writeBack_toNat_onlyReg (s := s.chunkInit) (rd := rd) hvalue
  have hheld : t.chunk = some s.chunkValue := hchunk
  refine ⟨t, hrun, hcompleted, hregs, hnop, hkeyed, hmem, hout, ?_, ?_, hrd⟩
  · rw [State.chv, hheld, Option.isSome_some]
  · rw [hheld]
    exact chunkOk_chunkValue hok

/-! ### Whole memories -/

/-- Settles O23: a length within `CAP` gives that many zero cells, and any other is no length. -/
theorem newMemoriesAreZeroFilled : Obligations.NewMemoriesAreZeroFilled := by
  refine fun rs1 s => ⟨decodeInvertsEncode (.newseq rs1) rfl, decodeInvertsEncode (.newbuf rs1) rfl,
    fun hle => ⟨?_, ?_⟩, fun hlt => ⟨?_, ?_⟩⟩
  · obtain ⟨t, hrun, hframe, hchunk, hmem⟩ := exec_newseq_onlySeq hle
    refine ⟨t, hrun, hframe, hchunk, ?_, fun i hi => ⟨zeroElem, ?_, rfl, rfl⟩⟩
    · rw [hmem, Memory.replaceSeq, List.length_replicate]
    · rw [hmem, Memory.replaceSeq, Memory.readSeq, List.getElem?_replicate_of_lt hi]
  · obtain ⟨t, hrun, hframe, hmem⟩ := exec_newbuf_onlyByte hle
    refine ⟨t, hrun, hframe, ?_, fun i hi => ?_⟩
    · rw [hmem, Memory.replaceByte, List.length_replicate]
    · rw [hmem, Memory.replaceByte, Memory.readByte, List.getElem?_replicate_of_lt hi]
  · exact orFault_faulted (lengthView_of_lt hlt) s .length (.newseq rs1) _
  · exact orFault_faulted (lengthView_of_lt hlt) s .length (.newbuf rs1) _

/-! ### Single cells -/

/-- Settles O24: each load goes on with the cell its index names, and a memory has no cell at or above its length. -/
theorem loadsReadOneCell : Obligations.LoadsReadOneCell := by
  refine fun rd rs1 s => ⟨decodeInvertsEncode (.lde rd rs1) rfl, decodeInvertsEncode (.ldb rd rs1) rfl,
    decodeInvertsEncode (.ldt rd rs1) rfl, fun e he => ?_, fun b hb => ?_, fun b hb => ?_, fun h => ?_, fun h => ?_,
    fun h => ?_⟩
  · exact orFault_writeBack_onlyReg he (pack_toNat e)
  · exact orFault_writeBack_onlyReg hb (byteWord_toNat b)
  · exact orFault_writeBack_onlyReg hb (byteWord_toNat b)
  · exact orFault_faulted (readSeq_eq_none.2 h) s .index (.lde rd rs1) _
  · exact orFault_faulted (readByte_eq_none.2 h) s .index (.ldb rd rs1) _
  · exact orFault_faulted (readText_eq_none.2 h) s .index (.ldt rd rs1) _

/-- Settles O25: the store writes the element view in one cell, and there is no store at or above the length. -/
theorem steStoresOneElement : Obligations.SteStoresOneElement := by
  refine fun rs1 rs2 s => ⟨decodeInvertsEncode (.ste rs1 rs2) rfl, fun hlt => ?_, fun hge => ?_⟩
  · have hwrite := writeSeq_of_lt hlt (s.elemView rs2)
    obtain ⟨t, hrun, hframe, hchunk, hmem⟩ := exec_ste_onlySeq hlt rs2
    rw [← hmem] at hwrite
    refine ⟨t, hrun, hframe, hchunk, ?_, ⟨s.elemView rs2, ?_, isElem_elemView s rs2⟩, fun a ha => ?_⟩
    · rw [hmem, Memory.replaceSeq, List.length_set]
    · rw [readSeq_writeSeq hwrite, if_pos rfl]
    · rw [readSeq_writeSeq hwrite, if_neg ha.symm]
  · exact orFault_faulted (writeSeq_eq_none.2 hge) s .index (.ste rs1 rs2) _

/-- Settles O26: the store writes the byte view in one cell, and there is no store at or above the length. -/
theorem stbStoresOneByte : Obligations.StbStoresOneByte := by
  refine fun rs1 rs2 s => ⟨decodeInvertsEncode (.stb rs1 rs2) rfl, fun hlt => ?_, fun hge => ?_⟩
  · have hwrite := writeByte_of_lt hlt (s.byteView rs2)
    obtain ⟨t, hrun, hframe, hmem⟩ := exec_stb_onlyByte hlt rs2
    rw [← hmem] at hwrite
    refine ⟨t, hrun, hframe, ?_, ⟨s.byteView rs2, ?_, byteView_toNat s rs2⟩, fun a ha => ?_⟩
    · rw [hmem, Memory.replaceByte, List.length_set]
    · rw [readByte_writeByte hwrite, if_pos rfl]
    · rw [readByte_writeByte hwrite, if_neg ha.symm]
  · exact orFault_faulted (writeByte_eq_none.2 hge) s .index (.stb rs1 rs2) _

end Sys2Proof.Proofs
end

section
/-! SUPPORT. Every command held against the table of causes: it takes the fault the table names, or has its effect and
completes (60_exceptions.md R231, R234). -/

namespace Sys2Proof.Proofs

open Sys2Proof.Machine Sys2Proof.Machine.Laws

/-! ### Completing -/

/-- A completing command advances `CC` and writes neither the fault record, nor `CFG`, nor the channel
(10_state.md R24). -/
theorem effect_completed {i : Instr} {s u : State} (h : Effect s i u) : Completed s u.complete := by
  cases h <;> exact ⟨rfl, rfl, rfl, rfl, rfl, rfl⟩

/-! ### When what a command needs is absent -/

theorem lengthView_eq_none {s : State} {r : Reg} : s.lengthView r = none ↔ s.cfg.cap.toNat < (s.reg r).toNat := by
  refine ⟨fun h => Nat.lt_of_not_le fun hle => ?_, lengthView_of_lt⟩
  rw [lengthView_of_le hle] at h
  cases h

theorem keyed_eq_none {s : State} : s.keyed = none ↔ s.kv = false := by
  rw [State.kv, Option.isSome_eq_false_iff, Option.isNone_iff_eq_none]

theorem sysRegOf_eq_phik {sr : BitVec 32} (h : sysRegOf sr = some .phik) : sr = 5#32 := by
  unfold sysRegOf at h
  split at h <;> cases h
  exact BitVec.eq_of_toNat_eq ‹_›

theorem sysRegOf_eq_phink {sr : BitVec 32} (h : sysRegOf sr = some .phink) : sr = 6#32 := by
  unfold sysRegOf at h
  split at h <;> cases h
  exact BitVec.eq_of_toNat_eq ‹_›

/-- The reserved numbers are those from 9 on (10_state.md R31). -/
theorem sysRegLimit_lt_of_sysRegOf_eq_none {sr : BitVec 32} (h : sysRegOf sr = none) : sysRegLimit < sr.toNat := by
  unfold sysRegOf at h
  split at h <;> cases h
  simp only [imp_false, sysRegLimit] at *
  omega

/-- `RDSR` can fault only where it reads one of the pair (60_exceptions.md R231). -/
theorem faultDue_rdsr_of_ne {sr : BitVec 32} (hphik : sysRegOf sr ≠ some .phik) (hphink : sysRegOf sr ≠ some .phink)
    (rd : Reg) (s : State) : faultDue (.rdsr rd sr) s = none := by
  refine if_neg ?_
  rintro ⟨rfl | rfl, -⟩
  · exact hphik rfl
  · exact hphink rfl

/-! ### The shared endings -/

/-- The answer `r` of the command `i` is the fault that is due, or, with none due, the completion of an effect. -/
def EndsAsDue (due : Option FaultCause) (i : Instr) (s : State) (r : Result) : Prop :=
  (∃ c, due = some c ∧ r = faultOut s c i) ∨ (due = none ∧ ∃ u, Effect s i u ∧ r = retire u)

section Endings

variable {i : Instr} {s : State}

theorem endsAsDue_retire {u : State} (h : Effect s i u) : EndsAsDue none i s (retire u) := .inr ⟨rfl, u, h, rfl⟩

theorem endsAsDue_writeBack (rd : Reg) (v : Word) : EndsAsDue none i s (writeBack s rd v) :=
  endsAsDue_retire (.reg i rd v)

/-- A command whose need is absent exactly under the table's condition ends as due. -/
theorem endsAsDue_orFault {α : Type} {o : Option α} {c : FaultCause} {go : α → Result} {p : Prop} [Decidable p]
    (habsent : o = none ↔ p) (hgo : ∀ v, o = some v → EndsAsDue none i s (go v)) :
    EndsAsDue (if p then some c else none) i s (orFault o s c i go) := by
  cases ho : o with
  | none =>
    rw [if_pos (habsent.1 ho), orFault_none]
    exact .inl ⟨c, rfl, rfl⟩
  | some v =>
    have hp : ¬ p := fun hp => by simp [habsent.2 hp] at ho
    rw [if_neg hp, orFault_some]
    exact hgo v ho

/-- A command that needs the pair ends as due (60_exceptions.md R231, `E_NOKEY`). -/
theorem endsAsDue_orFault_keyed {go : KeyedPair → Result} (hgo : ∀ k, EndsAsDue none i s (go k)) :
    EndsAsDue (if s.kv then none else some .noKey) i s (orFault s.keyed s .noKey i go) := by
  rw [← ite_not]
  exact endsAsDue_orFault (by rw [keyed_eq_none, Bool.not_eq_true]) fun k _ => hgo k

end Endings

/-! ### Every command -/

theorem execRdsr_endsAsDue {rd : Reg} {sr : BitVec 32} (hwf : sr.toNat ≤ sysRegLimit) (s : State) :
    EndsAsDue (faultDue (.rdsr rd sr) s) (.rdsr rd sr) s (execRdsr rd sr s) := by
  unfold execRdsr
  split
  case h_6 hsr =>
    cases sysRegOf_eq_phik hsr
    exact endsAsDue_orFault (by simp [keyed_eq_none]) fun k _ => endsAsDue_writeBack rd _
  case h_7 hsr =>
    cases sysRegOf_eq_phink hsr
    exact endsAsDue_orFault (by simp [keyed_eq_none]) fun k _ => endsAsDue_writeBack rd _
  case h_8 hsr =>
    cases sysRegOf_eq_chunk hsr
    exact endsAsDue_retire (.chunkRead rd _)
  case h_10 hsr => exact absurd hwf (sysRegLimit_lt_of_sysRegOf_eq_none hsr).not_ge
  all_goals
    rw [faultDue_rdsr_of_ne (by simp [*]) (by simp [*])]
    exact endsAsDue_writeBack rd _

/-- Every well-formed command takes exactly the fault the table of causes names, or has its effect and completes. -/
theorem exec_endsAsDue {i : Instr} (hwf : i.wf = true) (s : State) : EndsAsDue (faultDue i s) i s (exec i s) := by
  cases i with
  | lil | lih | mov | red | addp | subp | mulp | chkirr | s2f | addx | subx | negx | mulx | expx | expix | verify =>
    exact endsAsDue_writeBack _ _
  | out rs1 => exact endsAsDue_retire (.emit rs1)
  | nop => exact endsAsDue_retire .nop
  | haar => exact endsAsDue_retire .haar
  | phi rs1 => exact endsAsDue_retire (.phi rs1)
  | keyld rs1 => exact endsAsDue_retire (.keyld rs1)
  | lde rd => exact endsAsDue_orFault readSeq_eq_none fun _ _ => endsAsDue_writeBack rd _
  | ldb rd => exact endsAsDue_orFault readByte_eq_none fun _ _ => endsAsDue_writeBack rd _
  | ldt rd => exact endsAsDue_orFault readText_eq_none fun _ _ => endsAsDue_writeBack rd _
  | ste rs1 rs2 => exact endsAsDue_orFault writeSeq_eq_none fun m hm => endsAsDue_retire (.ste rs1 rs2 m hm)
  | stb rs1 rs2 => exact endsAsDue_orFault writeByte_eq_none fun m hm => endsAsDue_retire (.stb rs1 rs2 m hm)
  | newseq rs1 =>
    exact endsAsDue_orFault lengthView_eq_none fun n hn => endsAsDue_retire (.newseq rs1 n (lengthView_eq_some hn))
  | newbuf rs1 =>
    exact endsAsDue_orFault lengthView_eq_none fun n hn => endsAsDue_retire (.newbuf rs1 n (lengthView_eq_some hn))
  | tofreq => exact endsAsDue_orFault_keyed fun k => endsAsDue_retire (.tofreq k)
  | proc => exact endsAsDue_orFault_keyed fun k => endsAsDue_retire (.proc k)
  | recon => exact endsAsDue_orFault_keyed fun k => endsAsDue_retire (.recon k)
  | rdsr rd sr => exact execRdsr_endsAsDue (of_decide_eq_true hwf) s
  | edit rs1 rs2 level =>
    rw [execEdit_of_le (of_decide_eq_true hwf)]
    exact endsAsDue_orFault_keyed fun k => endsAsDue_retire (.edit rs1 rs2 level k)

/-! ### A faulted step -/

/-- While `FAULT = 1` a step drops the next word, if there is one (60_exceptions.md R235, R241). -/
theorem step_of_fault {s : State} (h : s.fault = true) : step s = .next { s with chan := s.chan.tail } := by
  cases hchan : s.chan with
  | nil => rw [step, takeWord_nil hchan, List.tail_nil, ← hchan]
  | cons w rest => simp only [step, takeWord_cons hchan, h, if_true, List.tail_cons]

end Sys2Proof.Proofs
end

section
/-! PROOFS. The statements about faults: which fault a command takes, what a fault writes, and what follows it
(60_exceptions.md). -/

namespace Sys2Proof.Proofs

open Sys2Proof.Machine Sys2Proof.Machine.Laws

/-- Settles O44: every command ends as due, and an effect leaves the fault record, `CFG` and the channel. -/
theorem commandsFaultExactlyByTable : Obligations.CommandsFaultExactlyByTable := by
  intro i s hwf
  obtain ⟨c, hdue, hrun⟩ | ⟨hdue, u, hu, hrun⟩ := exec_endsAsDue hwf s
  · rw [hdue]
    exact ⟨s.raiseFault c (encode i), hrun, rfl⟩
  · rw [hdue]
    exact ⟨u.complete, hrun, effect_completed hu⟩

/-- Settles O48: an illegal word records itself; a command records the word it encodes to, which is the word taken, or
completes and leaves `FAULT = 0`. -/
theorem faultsArePrecise : Obligations.FaultsArePrecise := by
  intro s t w rest hchan hfault hstep ht
  obtain ⟨hnil, -⟩ | ⟨_, _, _, hfault', -⟩ | ⟨_, _, _, hchan', -, -, rfl⟩ | ⟨_, _, i, hchan', -, hdec, hrun⟩ :=
    step_eq_next hstep
  · rw [hnil] at hchan
    cases hchan
  · rw [hfault] at hfault'
    cases hfault'
  · rw [hchan'] at hchan
    cases hchan
    exact ⟨.illegal, rfl⟩
  · rw [hchan'] at hchan
    cases hchan
    obtain ⟨c, rfl⟩ | ⟨u, hu, rfl⟩ := exec_ends hrun
    · rw [(encodeInvertsDecode w i hdec).2]
      exact ⟨c, rfl⟩
    · obtain ⟨-, hkept, -⟩ := effect_completed hu
      rw [hkept, hfault] at ht
      cases ht

/-- Settles O49, by induction on the number of steps, each of which drops one word and keeps `FAULT = 1`. -/
theorem faultedBlockDiscardsWords : Obligations.FaultedBlockDiscardsWords := by
  intro n
  induction n with
  | zero => exact fun s _ => rfl
  | succ n ih =>
    intro s hfault
    have hrest := ih { s with chan := s.chan.tail } hfault
    rw [List.drop_tail] at hrest
    exact run_succ_eq_next.2 ⟨_, step_of_fault hfault, hrest⟩

/-- Settles O45: the sequencer idles, discards the word, takes the fault of an illegal word, or runs a command, which is
well formed and takes its fault or completes. -/
theorem everyStepAnswersNext : Obligations.EveryStepAnswersNext := by
  intro s
  cases hfault : s.fault with
  | true => exact ⟨_, step_of_fault hfault⟩
  | false =>
    cases hchan : s.chan with
    | nil => exact ⟨s, by rw [step, takeWord_nil hchan]⟩
    | cons w rest =>
      cases hdec : decode w with
      | illegal why =>
        obtain ⟨t, hrun, -⟩ := illegalWordFaults s w rest why hchan hfault hdec
        exact ⟨t, hrun⟩
      | command i =>
        have hwf := (encodeInvertsDecode w i hdec).1
        obtain ⟨t, hrun, -⟩ := commandsFaultExactlyByTable i { s with chan := rest } hwf
        rw [stepRunsDecodedCommand s w rest i hchan hfault hdec]
        exact ⟨t, hrun⟩

end Sys2Proof.Proofs
end

section
/-! PROOFS. The statement about whole runs: every word sent is taken, and the block has then gone right or wrong
(70_reset_and_hazards.md R268). -/

namespace Sys2Proof.Proofs

open Sys2Proof.Machine Sys2Proof.Machine.Laws

/-! ### One word of a run -/

theorem completed_fault {s t : State} (h : Completed s t) : t.fault = s.fault := by
  obtain ⟨-, hfault, -⟩ := h
  exact hfault

theorem completed_chan {s t : State} (h : Completed s t) : t.chan = s.chan := by
  obtain ⟨-, -, -, -, -, hchan⟩ := h
  exact hchan

/-- An unfaulted step takes the next word, and faults in that word or completes a command (60_exceptions.md R242). -/
theorem step_faulted_or_completed {s : State} {w : Word} {rest : List Word} (hchan : s.chan = w :: rest)
    (hfault : s.fault = false) :
    ∃ t, step s = .next t ∧
      ((∃ c, Faulted c w { s with chan := rest } t) ∨ Completed { s with chan := rest } t) := by
  cases hdec : decode w with
  | illegal why =>
    obtain ⟨t, hrun, ht⟩ := illegalWordFaults s w rest why hchan hfault hdec
    exact ⟨t, hrun, .inl ⟨.illegal, ht⟩⟩
  | command i =>
    obtain ⟨hwf, henc⟩ := encodeInvertsDecode w i hdec
    rw [stepRunsDecodedCommand s w rest i hchan hfault hdec]
    obtain ⟨c, -, hrun⟩ | ⟨-, u, hu, hrun⟩ := exec_endsAsDue hwf { s with chan := rest }
    · refine ⟨_, hrun, .inl ⟨c, ?_⟩⟩
      rw [henc]
      rfl
    · exact ⟨_, hrun, .inr (effect_completed hu)⟩

/-! ### From one word to the whole run -/

/-- A run that faults in its first word and discards the others has gone wrong at word 0. -/
theorem wentWrong_of_faulted {s t : State} {w : Word} {rest : List Word} {c : FaultCause} (hchan : s.chan = w :: rest)
    (h : Faulted c w { s with chan := rest } t) : WentWrong s { t with chan := [] } := by
  subst h
  refine ⟨rfl, rfl, 0, ?_, (BitVec.add_zero s.cc).symm, ?_⟩
  · rw [hchan]
    exact Nat.succ_pos _
  · rw [hchan]
    rfl

section Completing

variable {s u t : State} {w : Word} {rest : List Word}

/-- A completed command before `n` others makes `n + 1` of them in `CC` (10_state.md R24). -/
theorem completed_cc_add {n : Nat} (h : Completed { s with chan := rest } u) (ht : t.cc = u.cc + BitVec.ofNat 64 n) :
    t.cc = s.cc + BitVec.ofNat 64 (n + 1) := by
  obtain ⟨hcc, -⟩ := h
  rw [ht, hcc, BitVec.add_assoc, ← BitVec.ofNat_add, Nat.add_comm]

theorem wentRight_of_completed (hchan : s.chan = w :: rest) (h : Completed { s with chan := rest } u)
    (ht : WentRight u t) : WentRight s t := by
  obtain ⟨hnil, hfault, hcc⟩ := ht
  rw [completed_chan h] at hcc
  refine ⟨hnil, hfault, ?_⟩
  rw [hchan]
  exact completed_cc_add h hcc

theorem wentWrong_of_completed (hchan : s.chan = w :: rest) (h : Completed { s with chan := rest } u)
    (ht : WentWrong u t) : WentWrong s t := by
  obtain ⟨hnil, hfault, k, hk, hcc, hfcmd⟩ := ht
  rw [completed_chan h] at hk hfcmd
  refine ⟨hnil, hfault, k + 1, ?_, completed_cc_add h hcc, ?_⟩
  · rw [hchan]
    exact Nat.succ_lt_succ hk
  · rw [hchan, List.getElem?_cons_succ]
    exact hfcmd

end Completing

/-- Settles O50, by induction on the words in the channel: a first word that faults ends the run wrong, since the others
are discarded, and a first word that completes leaves the run of the others. -/
theorem runsEndRightOrWrong : Obligations.RunsEndRightOrWrong := by
  intro s hfault
  induction hchan : s.chan generalizing s with
  | nil =>
    refine ⟨s, rfl, .inl ⟨hchan, hfault, ?_⟩⟩
    rw [hchan]
    exact (BitVec.add_zero s.cc).symm
  | cons w rest ih =>
    obtain ⟨u, hstep, ⟨c, hu⟩ | hu⟩ := step_faulted_or_completed hchan hfault
    · have huchan : u.chan = rest := by rw [hu]
      have hrest := faultedBlockDiscardsWords rest.length u (by rw [hu])
      rw [huchan, List.drop_length] at hrest
      exact ⟨_, run_succ_eq_next.2 ⟨u, hstep, hrest⟩, .inr (wentWrong_of_faulted hchan hu)⟩
    · obtain ⟨t, hrun, ht⟩ := ih u ((completed_fault hu).trans hfault) (completed_chan hu)
      exact ⟨t, run_succ_eq_next.2 ⟨u, hstep, hrun⟩,
        ht.imp (wentRight_of_completed hchan hu) (wentWrong_of_completed hchan hu)⟩

end Sys2Proof.Proofs
end
